-- ==== Sys2Proof/Word.lean ====
section
/-! DEFINITION. The machine's one number type: a signed 64-bit cell value (spec/00_scope.md R7, spec/20_memory.md R38). -/

namespace Sys2Proof

/-- A value of `i64`: the content of a memory cell, of a channel element, of a raw argument and of `pc`
(R7, R12). It is held as its two's complement bit image (R38; log 1); every rule speaks of the integer
`w.toInt`. -/
abbrev Word := BitVec 64

/-- The cell value of an integer. Exact for integers of `i64`; callers test the range first (R96). -/
def wordOfInt (v : Int) : Word := BitVec.ofInt 64 v

end Sys2Proof
end

