-- ==== Sys2Proof/Config.lean ====
section
/-! DEFINITION. What is fixed for the machine. The spec leaves no value free (spec/93_implementation_defined.md
section 1), so there is no opaque constant here; `LEN`, `IMAGE` and the channels are arguments of a run (R6) and
reach the machine through the host's operations. -/

namespace Sys2Proof

/-- The greatest number of memory cells (R6, decision D18 of the spec). -/
def Config.maxLen : Nat := 2 ^ 63 - 1

/-- The entry point: the first instruction is fetched from cell 0 (R25, R39). -/
def Config.entry : Word := 0

/-- What a valid address that the memory's list does not mention reads as. A matter of representation only:
every cell of an image has a value (R26), and a cell that holds 0 is simply not listed (log 2). -/
def Config.unlistedCell : Word := 0

/-- The longest instruction, in cells (R47). -/
def Config.longestInstruction : Nat := 4

end Sys2Proof
end

