-- ==== Sys2Proof/Syntax.lean ====
section
/-! DEFINITION. The instructions as syntax: operations, addressing modes, arguments, and `Instr` with one constructor
per row of spec/opcode_table.json; and the names of the seven fault causes. -/

namespace Sys2Proof

/-- The two addressing modes (R53). -/
inductive Mode where
  | position
  | immediate
  deriving DecidableEq, Repr

/-- An argument: "a raw integer value paired with an addressing mode" (R9, R65). -/
structure Arg where
  raw : Word
  mode : Mode
  deriving DecidableEq, Repr

/-- The closed set of nine operations (R1, R50). -/
inductive Op where
  | add
  | multiply
  | read
  | write
  | jumpIfTrue
  | jumpIfFalse
  | lessThan
  | equals
  | halt
  deriving DecidableEq, Repr

/-- A decoded instruction (R65): the operation with exactly as many arguments as it has. The decoder pairs every
argument with its mode, the destination's included (R55). -/
inductive Instr where
  | add (a0 a1 a2 : Arg)
  | multiply (a0 a1 a2 : Arg)
  | read (a0 : Arg)
  | write (a0 : Arg)
  | jumpIfTrue (a0 a1 : Arg)
  | jumpIfFalse (a0 a1 : Arg)
  | lessThan (a0 a1 a2 : Arg)
  | equals (a0 a1 a2 : Arg)
  | halt
  deriving DecidableEq, Repr

/-- The operation of an instruction. -/
def Instr.op : Instr → Op
  | .add _ _ _ => .add
  | .multiply _ _ _ => .multiply
  | .read _ => .read
  | .write _ => .write
  | .jumpIfTrue _ _ => .jumpIfTrue
  | .jumpIfFalse _ _ => .jumpIfFalse
  | .lessThan _ _ _ => .lessThan
  | .equals _ _ _ => .equals
  | .halt => .halt

/-- The arguments of an instruction, leftmost first. -/
def Instr.args : Instr → List Arg
  | .add a0 a1 a2 => [a0, a1, a2]
  | .multiply a0 a1 a2 => [a0, a1, a2]
  | .read a0 => [a0]
  | .write a0 => [a0]
  | .jumpIfTrue a0 a1 => [a0, a1]
  | .jumpIfFalse a0 a1 => [a0, a1]
  | .lessThan a0 a1 a2 => [a0, a1, a2]
  | .equals a0 a1 a2 => [a0, a1, a2]
  | .halt => []

/-- The seven fault causes (R106). The decoder raises the first three (R107 to R109), execution the rest and
`outOfBounds` (R120). -/
inductive Cause where
  | invalidOpcode
  | invalidMode
  | outOfBounds
  | noInputChannel
  | noOutputChannel
  | inputExhausted
  | arithmeticOverflow
  deriving DecidableEq, Repr

end Sys2Proof
end

