-- ==== Sys2Proof/Decode.lean ====
section
/-! DEFINITION. The instruction decoder, total on any cells, and the encoder (spec/30_encoding.md). The encoding is
decimal: fields are decimal digits of the instruction word. -/

namespace Sys2Proof

/-- `digit(v, i)`, the decimal digit of `v` of weight `10^i` (R7). -/
def digit (v i : Nat) : Nat := v / 10 ^ i % 10

/-- The fixed argument count of an operation (R51). -/
def Op.argc : Op → Nat
  | .add => 3
  | .multiply => 3
  | .read => 1
  | .write => 1
  | .jumpIfTrue => 2
  | .jumpIfFalse => 2
  | .lessThan => 3
  | .equals => 3
  | .halt => 0

/-- The number of cells an instruction occupies (R46, R64). -/
def Instr.length (i : Instr) : Nat := 1 + i.op.argc

/-- The opcode map, from operation to opcode (R50). -/
def Op.code : Op → Nat
  | .add => 1
  | .multiply => 2
  | .read => 3
  | .write => 4
  | .jumpIfTrue => 5
  | .jumpIfFalse => 6
  | .lessThan => 7
  | .equals => 8
  | .halt => 99

/-- The opcode map, from opcode to operation: every other value has no entry (R50). -/
def Op.ofCode : Nat → Option Op
  | 1 => some .add
  | 2 => some .multiply
  | 3 => some .read
  | 4 => some .write
  | 5 => some .jumpIfTrue
  | 6 => some .jumpIfFalse
  | 7 => some .lessThan
  | 8 => some .equals
  | 99 => some .halt
  | _ => none

/-- The value of a mode digit; 2 to 9 have none (R53). -/
def Mode.ofDigit : Nat → Option Mode
  | 0 => some .position
  | 1 => some .immediate
  | _ => none

/-- The digit of a mode (R53). -/
def Mode.digit : Mode → Nat
  | .position => 0
  | .immediate => 1

/-- The operation an instruction word selects: none for a negative word (R57), else that of `W mod 100` (R49). -/
def opOfWord (w : Word) : Option Op :=
  if w.toInt < 0 then none else Op.ofCode (w.toNat % 100)

/-- Argument `i` of the word `w`: its mode digit is tested before its raw-value cell is read (R52, R58, R60). -/
def decodeArg (fetch : Nat → Option Word) (w : Word) (i : Nat) : Except Cause Arg :=
  match Mode.ofDigit (digit w.toNat (i + 2)) with
  | none => .error .invalidMode
  | some mode =>
    match fetch (1 + i) with
    | none => .error .outOfBounds
    | some raw => .ok ⟨raw, mode⟩

/-- The arguments of a one-argument operation (format F1). -/
def decodeF1 (fetch : Nat → Option Word) (w : Word) (mk : Arg → Instr) : Except Cause Instr := do
  let a0 ← decodeArg fetch w 0
  return mk a0

/-- The arguments of a two-argument operation (format F2), argument 0 first (R60). -/
def decodeF2 (fetch : Nat → Option Word) (w : Word) (mk : Arg → Arg → Instr) : Except Cause Instr := do
  let a0 ← decodeArg fetch w 0
  let a1 ← decodeArg fetch w 1
  return mk a0 a1

/-- The arguments of a three-argument operation (format F3), argument 0 first (R60). -/
def decodeF3 (fetch : Nat → Option Word) (w : Word) (mk : Arg → Arg → Arg → Instr) : Except Cause Instr := do
  let a0 ← decodeArg fetch w 0
  let a1 ← decodeArg fetch w 1
  let a2 ← decodeArg fetch w 2
  return mk a0 a1 a2

/-- The decoder (R58). `fetch k` is the cell `k` places after the instruction's address, none where that is outside
memory. It looks at the word, then the opcode, then one argument at a time (R60), and it reads nothing past the
instruction's last cell (R64). -/
def decode (fetch : Nat → Option Word) : Except Cause Instr :=
  match fetch 0 with
  | none => .error .outOfBounds
  | some w =>
    match opOfWord w with
    | none => .error .invalidOpcode
    | some .add => decodeF3 fetch w .add
    | some .multiply => decodeF3 fetch w .multiply
    | some .read => decodeF1 fetch w .read
    | some .write => decodeF1 fetch w .write
    | some .jumpIfTrue => decodeF2 fetch w .jumpIfTrue
    | some .jumpIfFalse => decodeF2 fetch w .jumpIfFalse
    | some .lessThan => decodeF3 fetch w .lessThan
    | some .equals => decodeF3 fetch w .equals
    | some .halt => .ok .halt

/-- Decoding from a list of cells: the cells past its end are outside memory. -/
def decodeCells (cells : List Word) : Except Cause Instr := decode (fun k => cells[k]?)

/-- The mode part of a word, `m0 + 10*m1 + 100*m2` (R46, R52). -/
def modesNat : List Arg → Nat
  | [] => 0
  | a :: rest => a.mode.digit + 10 * modesNat rest

/-- The instruction word: `opcode + 100 * modes` (R46, R66). -/
def encodeWord (i : Instr) : Word := BitVec.ofNat 64 (i.op.code + 100 * modesNat i.args)

/-- The cells of an instruction: its word, then the raw values of its arguments in order (R46, R48). -/
def encode (i : Instr) : List Word := encodeWord i :: i.args.map Arg.raw

/-- Cell `k` of an instruction whose bits are `w`, the first cell in bits 63 to 0, the next in bits 127 to 64 and so
on; every bit from `nbits` up is 0. -/
def tableCell (nbits w k : Nat) : Word := BitVec.ofNat 64 (w % 2 ^ nbits / 2 ^ (64 * k))

/-- What the decoder reads from an instruction whose bits are `w`. -/
def decodeTableWord (nbits w : Nat) : Option Instr :=
  match decode (fun k => some (tableCell nbits w k)) with
  | .ok i => some i
  | .error _ => none

end Sys2Proof
end

