-- ==== Sys2Proof/Machine/State.lean ====
section
/-! DEFINITION. The state of the machine as plain data (spec/10_state.md), the reasons a step stops, and the state
after reset. -/

namespace Sys2Proof.Machine

/-- Memory `M` (R11): `len` is `LEN`, and `cells` lists the cells that do not hold `Config.unlistedCell` by address.
The unit is the whole 64-bit cell, the machine's only unit (R34, R35; log 2). The canonical form is `Memory.wf`. -/
structure Memory where
  len : Nat
  cells : List (Nat × Word)
  deriving DecidableEq, Repr

/-- A channel: "an ordered sequence of integers plus a read cursor" (R15). -/
structure Channel where
  items : List Word
  cur : Nat
  deriving DecidableEq, Repr

/-- The run state `STATUS` (R18). -/
inductive Status where
  | ready
  | running
  | halted
  | faulted
  deriving DecidableEq, Repr

/-- The whole architectural state (R10 to R22): there are no registers, flags or hidden state (R10, R14, R22, R24).
`cause = none` is `CAUSE` 0 (R19). `input = some ch` says that `IN_BOUND` is 1 and `IN` refers to `ch`, and
`input = none` that `IN_BOUND` is 0; the same for `output` (R20, R21; log 5). -/
structure State where
  mem : Memory
  pc : Word
  status : Status
  cause : Option Cause
  input : Option Channel
  output : Option Channel
  deriving DecidableEq, Repr

/-- Why a step gives no next state: the engine takes a cycle only when `STATUS` is RUNNING (R92; log 6). The
hardware's own fatal conditions are no constructors here: their entry is a next state (R116). -/
inductive Fault where
  /-- Raised by `step` in READY: the engine waits for `execute()` (R92, R126). Safe: the hardware does not move. -/
  | notStarted
  /-- Raised by `step` in HALTED: the engine never moves again (R92, R145). Safe: the hardware does not move. -/
  | runHalted
  /-- Raised by `step` in FAULTED: the engine never moves again (R92, R117, R145). Safe: the hardware does not move. -/
  | runFaulted
  deriving DecidableEq, Repr

/-- What the machine gives no meaning to. -/
inductive Refusal where
  /-- Raised by an arm of `exec` for an instruction without a meaning; no arm raises it now. Safe. -/
  | notModelled (mnemonic : String)
  /-- Raised by `setInputChannel` and `setOutputChannel` outside READY: "undefined and unsupported" (R141). Safe. -/
  | bindOutsideReady
  /-- Raised by `execute` outside READY: one engine, one run (R133, R145). Safe. -/
  | executeOutsideReady
  /-- Raised by the host's channel operations at a moment the spec gives the host no such move (R135, R137; log 9). Safe. -/
  | noSuchHostMove
  /-- Raised by the host's channel operations on a side that has no channel bound (log 9). Safe. -/
  | noChannelBound
  /-- Raised by `collectOutput` on an output channel with nothing left: the channel block's `ChannelExhausted`, which
  reaches the host only (R73, R77). Safe: nothing changes. -/
  | channelExhausted
  deriving DecidableEq, Repr

/-- The state reset leaves: construction (R25, R130) from the empty image. The image is an argument of the model
(R6), so its choice here is the model's (DESIGN CHOICE, log 3); `reset_eq_construct` ties it to `construct`. -/
def State.reset : State where
  mem := ⟨0, []⟩
  pc := Config.entry
  status := .ready
  cause := none
  input := none
  output := none

end Sys2Proof.Machine
end

