-- ==== Sys2Proof/Machine/Ops.lean ====
section
/-! DEFINITION. The named operations over memory, `pc`, the channels and the run-outcome state: checked memory access
(spec/20_memory.md), the channel operations (spec/40_channels.md), the sequential advance (spec/41_cycle.md R85), and
the one fault entry (spec/60_exceptions.md R116). -/

namespace Sys2Proof.Machine

/-! ## Codes of the run-outcome state -/

/-- The codes of `STATUS` (R18). -/
def Status.code : Status → Nat
  | .ready => 0
  | .running => 1
  | .halted => 2
  | .faulted => 3

/-- The codes of `CAUSE` (R106); 0 is "no fault". -/
def causeCode : Option Cause → Nat
  | none => 0
  | some .invalidOpcode => 1
  | some .invalidMode => 2
  | some .outOfBounds => 3
  | some .noInputChannel => 4
  | some .noOutputChannel => 5
  | some .inputExhausted => 6
  | some .arithmeticOverflow => 7

/-- `IN_BOUND` (R20). -/
def State.inBound (s : State) : Bool := s.input.isSome

/-- `OUT_BOUND` (R21). -/
def State.outBound (s : State) : Bool := s.output.isSome

/-! ## Memory -/

/-- The value a list of cells gives an address. -/
def cellLookup : List (Nat × Word) → Nat → Word
  | [], _ => Config.unlistedCell
  | (b, v) :: rest, a => if b = a then v else cellLookup rest a

/-- Adds a cell before the first one of a greater address. -/
def cellInsert (a : Nat) (v : Word) : List (Nat × Word) → List (Nat × Word)
  | [] => [(a, v)]
  | (b, u) :: rest => if a < b then (a, v) :: (b, u) :: rest else (b, u) :: cellInsert a v rest

/-- Takes an address out of the list. -/
def cellErase (a : Nat) : List (Nat × Word) → List (Nat × Word)
  | [] => []
  | (b, u) :: rest => if b = a then cellErase a rest else (b, u) :: cellErase a rest

/-- Gives an address a value; a cell equal to what an unlisted one reads as is not listed. -/
def cellStore (a : Nat) (v : Word) (cells : List (Nat × Word)) : List (Nat × Word) :=
  if v = Config.unlistedCell then cellErase a cells else cellInsert a v (cellErase a cells)

/-- The test `InRange(a)`: `0 <= a < LEN` (R32). -/
def Memory.inRange (m : Memory) (a : Int) : Bool := 0 ≤ a && a < m.len

/-- The content of cell `a`, where there is such a cell (R11, R26). -/
def Memory.cell? (m : Memory) (a : Int) : Option Word :=
  if m.inRange a then some (cellLookup m.cells a.toNat) else none

/-- `MemRead(a, 1)` (R30). -/
def Memory.read (m : Memory) (a : Int) : Except Cause Word :=
  match m.cell? a with
  | none => .error .outOfBounds
  | some v => .ok v

/-- `M[a] <- v` for a valid address: one cell is replaced, `LEN` never changes (R11, R31). -/
def Memory.put (m : Memory) (a : Int) (v : Word) : Memory := ⟨m.len, cellStore a.toNat v m.cells⟩

/-- `MemWrite(a, 1, v)` (R31). -/
def Memory.write (m : Memory) (a : Int) (v : Word) : Except Cause Memory :=
  if m.inRange a then .ok (m.put a v) else .error .outOfBounds

/-- The addresses of a list of cells strictly rise. -/
def cellsRise : List (Nat × Word) → Bool
  | [] => true
  | (a, _) :: rest => rest.all (fun c => a < c.1) && cellsRise rest

/-- The canonical form: `LEN` in its range (R6), addresses strictly rising and valid, and no cell listed that holds
what an unlisted one reads as. -/
def Memory.wf (m : Memory) : Bool :=
  m.len ≤ Config.maxLen && cellsRise m.cells && m.cells.all (fun c => c.1 < m.len && c.2 != Config.unlistedCell)

/-- The memory holding an image (R130): cell `a + k` is the `k`-th value of the list. -/
def cellsOfImage (a : Nat) : List Word → List (Nat × Word)
  | [] => []
  | v :: rest =>
    if v = Config.unlistedCell then cellsOfImage (a + 1) rest else (a, v) :: cellsOfImage (a + 1) rest

/-- A copy of the image: `LEN` is its length and each cell its value (R25, R130). -/
def Memory.ofImage (image : List Word) : Memory := ⟨image.length, cellsOfImage 0 image⟩

/-! ## Channels -/

/-- What the channel block reports to its caller (R77). -/
inductive ChannelError where
  /-- `ChanRead` on a channel that cannot be read (R73). -/
  | exhausted
  deriving DecidableEq, Repr

/-- A channel fresh from creation (R17). -/
def Channel.fresh : Channel := ⟨[], 0⟩

/-- The cursor stays within the items (R15, R79). -/
def Channel.wf (ch : Channel) : Bool := ch.cur ≤ ch.items.length

/-- `ChanWrite(ch, v)`: always succeeds (R71, R78). -/
def Channel.write (ch : Channel) (v : Word) : Channel := ⟨ch.items ++ [v], ch.cur⟩

/-- `ChanCanRead(ch)` (R72). -/
def Channel.canRead (ch : Channel) : Bool := ch.cur < ch.items.length

/-- `ChanRead(ch)`: the element at the cursor and the channel with the cursor moved on (R73). -/
def Channel.read (ch : Channel) : Except ChannelError (Word × Channel) :=
  match ch.items[ch.cur]? with
  | none => .error .exhausted
  | some v => .ok (v, ⟨ch.items, ch.cur + 1⟩)

/-! ## Updates of the state, one per field -/

/-- `pc <- t` (R12, R86). -/
def State.setPc (t : Word) (s : State) : State := { s with pc := t }

/-- The sequential advance `pc <- p + argc(op) + 1` (R85). -/
def State.advance (op : Op) (s : State) : State := s.setPc (s.pc + BitVec.ofNat 64 (op.argc + 1))

/-- Memory replaced. -/
def State.setMem (m : Memory) (s : State) : State := { s with mem := m }

/-- `STATUS <- st`. -/
def State.setStatus (st : Status) (s : State) : State := { s with status := st }

/-- The input channel replaced: its cursor moved on by Read (R98), or a channel bound by the host (R132). -/
def State.setInput (ch : Channel) (s : State) : State := { s with input := some ch }

/-- The output channel replaced: an element appended by Write (R99), or a channel bound by the host (R132). -/
def State.setOutput (ch : Channel) (s : State) : State := { s with output := some ch }

/-- `MemWrite(a, 1, v)` on the state. -/
def State.store (s : State) (a : Word) (v : Word) : Except Cause State :=
  match s.mem.write a.toInt v with
  | .ok m => .ok (s.setMem m)
  | .error c => .error c

/-! ## Taking a fault, and ending a cycle -/

/-- Fault entry (R116): `STATUS <- FAULTED`, `CAUSE <- code(F)`, and nothing else. Nothing is saved and control goes
nowhere; there is no handler and so no return from one (R117). -/
def State.takeFault (c : Cause) (s : State) : State := { s with status := .faulted, cause := some c }

/-- The end of a cycle (R80): an instruction that raised nothing leaves the state it computed; one that raised leaves
the state at the start of the cycle with the fault entry made, none of its assignments taking effect (R115). -/
def State.settle (s : State) (r : Except Cause State) : Host.Outcome State Fault Refusal :=
  match r with
  | .ok t => .next t
  | .error c => .next (s.takeFault c)

/-- The bound input channel (R20, R110). -/
def State.boundInput (s : State) : Except Cause Channel :=
  match s.input with
  | none => .error .noInputChannel
  | some ch => .ok ch

/-- The bound output channel (R21, R111). -/
def State.boundOutput (s : State) : Except Cause Channel :=
  match s.output with
  | none => .error .noOutputChannel
  | some ch => .ok ch

/-- The next input element, with the channel as it is once the element is consumed. The engine tests `ChanCanRead`
first and raises its own `InputExhausted` (R77, R98, R112), so `ChanRead`'s own error never arises here. -/
def Channel.next (ch : Channel) : Except Cause (Word × Channel) :=
  if ch.canRead then
    match ch.read with
    | .ok p => .ok p
    | .error .exhausted => .error .inputExhausted
  else .error .inputExhausted

/-! ## Fetching an instruction's cells -/

/-- What the decoder reads: the cell `k` places after `pc`, computed on integers (R58, R81). -/
def State.fetch (s : State) (k : Nat) : Option Word := s.mem.cell? (s.pc.toInt + k)

end Sys2Proof.Machine
end

