-- ==== Sys2Proof/Machine/Flags.lean ====
section
/-! DEFINITION. The hardware has no flags, condition codes or predicates (spec/10_state.md R14). What other machines
report in flags is here the range test of a result (spec/42_arithmetic.md R96) and the 0 or 1 a comparison stores
(spec/45_compare.md). -/

namespace Sys2Proof.Machine

/-- The mathematical integer `v` is in `i64` (R7). -/
def fitsWord (v : Int) : Bool := -2 ^ 63 ≤ v && v ≤ 2 ^ 63 - 1

/-- The result of an Add or Multiply: the exact integer where it fits, else `ArithmeticOverflow`; never wrapped or
saturated (R96, R113). -/
def checkedResult (v : Int) : Except Cause Word :=
  if fitsWord v then .ok (wordOfInt v) else .error .arithmeticOverflow

/-- The result of a comparison: exactly 1 or 0 (R103, R104). -/
def truthWord (b : Bool) : Word := if b then 1 else 0

end Sys2Proof.Machine
end

