-- ==== Sys2Proof/Machine/Operands.lean ====
section
/-! DEFINITION. The two operand forms: value arguments and destination arguments (spec/41_cycle.md R83, R84). -/

namespace Sys2Proof.Machine

/-- `val(arg)`: the raw value itself in Immediate mode, the cell it addresses in Position mode (R83). -/
def State.val (s : State) (arg : Arg) : Except Cause Word :=
  match arg.mode with
  | .immediate => .ok arg.raw
  | .position => s.mem.read arg.raw.toInt

/-- `dst(arg)`: the raw value as an address, the mode not consulted (R84). -/
def dst (arg : Arg) : Word := arg.raw

end Sys2Proof.Machine
end

