-- ==== Sys2Proof/Machine/Arithmetic.lean ====
section
/-! DEFINITION. Add and Multiply (spec/42_arithmetic.md), and the shape they share with the comparisons. -/

namespace Sys2Proof.Machine

/-- The format F3 cycle: both value arguments left to right, the result, the store, the advance (R91, R94, R95, R103,
R104). Every test comes before the one commit (R115). -/
def threeOperand (op : Op) (f : Word → Word → Except Cause Word) (a0 a1 a2 : Arg) (s : State) :
    Host.Outcome State Fault Refusal :=
  s.settle (do
    let x ← s.val a0
    let y ← s.val a1
    let r ← f x y
    let t ← s.store (dst a2) r
    return t.advance op)

/-- Add: `dest = value(arg0) + value(arg1)` (R94). -/
def execAdd (a0 a1 a2 : Arg) (s : State) : Host.Outcome State Fault Refusal :=
  threeOperand .add (fun x y => checkedResult (x.toInt + y.toInt)) a0 a1 a2 s

/-- Multiply: `dest = value(arg0) * value(arg1)` (R95). -/
def execMultiply (a0 a1 a2 : Arg) (s : State) : Host.Outcome State Fault Refusal :=
  threeOperand .multiply (fun x y => checkedResult (x.toInt * y.toInt)) a0 a1 a2 s

end Sys2Proof.Machine
end

