-- ==== Sys2Proof/Machine/Compare.lean ====
section
/-! DEFINITION. LessThan and Equals (spec/45_compare.md). -/

namespace Sys2Proof.Machine

/-- LessThan: `dest = 1 if value(arg0) < value(arg1) else 0`, the signed order of the integers (R103). -/
def execLessThan (a0 a1 a2 : Arg) (s : State) : Host.Outcome State Fault Refusal :=
  threeOperand .lessThan (fun x y => .ok (truthWord (x.toInt < y.toInt))) a0 a1 a2 s

/-- Equals: `dest = 1 if value(arg0) = value(arg1) else 0`, equality of the integers (R104). -/
def execEquals (a0 a1 a2 : Arg) (s : State) : Host.Outcome State Fault Refusal :=
  threeOperand .equals (fun x y => .ok (truthWord (x.toInt = y.toInt))) a0 a1 a2 s

end Sys2Proof.Machine
end

