-- ==== Sys2Proof/Machine/Halt.lean ====
section
/-! DEFINITION. Halt (spec/46_halt.md). -/

namespace Sys2Proof.Machine

/-- Halt: `STATUS <- HALTED`; `pc`, memory and both channels unchanged (R105). -/
def execHalt (s : State) : Host.Outcome State Fault Refusal :=
  s.settle (.ok (s.setStatus .halted))

end Sys2Proof.Machine
end

