-- ==== Sys2Proof/Machine/Io.lean ====
section
/-! DEFINITION. Read and Write (spec/43_io.md). -/

namespace Sys2Proof.Machine

/-- Read: the next input element into the destination cell (R98). The tests are made in the rule's order:
`NoInputChannel`, `InputExhausted`, the destination; the consumed element is committed with the rest, so a faulting
Read consumes nothing. -/
def execRead (a0 : Arg) (s : State) : Host.Outcome State Fault Refusal :=
  s.settle (do
    let ch ← s.boundInput
    let (v, rest) ← ch.next
    let t ← s.store (dst a0) v
    return (t.setInput rest).advance .read)

/-- Write: the value appended to the output channel (R99). The operand is resolved before the binding is tested. -/
def execWrite (a0 : Arg) (s : State) : Host.Outcome State Fault Refusal :=
  s.settle (do
    let v ← s.val a0
    let ch ← s.boundOutput
    return (s.setOutput (ch.write v)).advance .write)

end Sys2Proof.Machine
end

