-- ==== Sys2Proof/Machine/Jump.lean ====
section
/-! DEFINITION. JumpIfTrue and JumpIfFalse (spec/44_jumps.md). -/

namespace Sys2Proof.Machine

/-- The format F2 cycle: the condition, then, only when the jump is taken, the target, stored untested and without
an advance (R86, R100 to R102); else the advance. -/
def jumpWhen (op : Op) (taken : Word → Bool) (a0 a1 : Arg) (s : State) : Host.Outcome State Fault Refusal :=
  s.settle (do
    let c ← s.val a0
    if taken c then
      let t ← s.val a1
      return s.setPc t
    else
      return s.advance op)

/-- JumpIfTrue: taken when `value(arg0) ≠ 0` (R100). -/
def execJumpIfTrue (a0 a1 : Arg) (s : State) : Host.Outcome State Fault Refusal :=
  jumpWhen .jumpIfTrue (fun c => c.toInt ≠ 0) a0 a1 s

/-- JumpIfFalse: taken when `value(arg0) = 0` (R101). -/
def execJumpIfFalse (a0 a1 : Arg) (s : State) : Host.Outcome State Fault Refusal :=
  jumpWhen .jumpIfFalse (fun c => c.toInt = 0) a0 a1 s

end Sys2Proof.Machine
end

