-- ==== Sys2Proof/Machine/Dispatch.lean ====
section
/-! DEFINITION. Dispatch over the closed set of nine operations (spec/41_cycle.md R82): one arm per constructor. -/

namespace Sys2Proof.Machine

/-- The execute stage: the operation's own rule (R80, R82). -/
def exec (i : Instr) (s : State) : Host.Outcome State Fault Refusal :=
  match i with
  | .add a0 a1 a2 => Sys2Proof.Machine.execAdd a0 a1 a2 s
  | .multiply a0 a1 a2 => Sys2Proof.Machine.execMultiply a0 a1 a2 s
  | .read a0 => Sys2Proof.Machine.execRead a0 s
  | .write a0 => Sys2Proof.Machine.execWrite a0 s
  | .jumpIfTrue a0 a1 => Sys2Proof.Machine.execJumpIfTrue a0 a1 s
  | .jumpIfFalse a0 a1 => Sys2Proof.Machine.execJumpIfFalse a0 a1 s
  | .lessThan a0 a1 a2 => Sys2Proof.Machine.execLessThan a0 a1 a2 s
  | .equals a0 a1 a2 => Sys2Proof.Machine.execEquals a0 a1 a2 s
  | .halt => Sys2Proof.Machine.execHalt s

end Sys2Proof.Machine
end

