-- ==== Sys2Proof/Machine/Cycle.lean ====
section
/-! DEFINITION. One cycle of the engine: decode, then execute (spec/41_cycle.md R80). -/

namespace Sys2Proof.Machine

/-- One cycle: the decoder reads the current memory at the current `pc` (R81); a decode failure is a fault (R88); what
decodes is executed (R82). -/
def cycle (s : State) : Host.Outcome State Fault Refusal :=
  match decode s.fetch with
  | .error c => .next (s.takeFault c)
  | .ok i => exec i s

end Sys2Proof.Machine
end

