-- ==== Sys2Proof/Machine/HostOps.lean ====
section
/-! DEFINITION. The host's operations on the core (spec/70_reset_and_hazards.md): construction, channel binding,
`execute()`, inspection after the run, and the hand-off of a channel to a later engine. They are no steps of the
engine: the host moves only outside a run (R5, R135). -/

namespace Sys2Proof.Machine

/-- `construct(IMAGE)` (R130), the only reset (R131). The image's length is at most `Config.maxLen` (R6). -/
def construct (image : List Word) : State where
  mem := Memory.ofImage image
  pc := Config.entry
  status := .ready
  cause := none
  input := none
  output := none

/-- `set_input_channel(ch)`: only in READY; a later binding replaces an earlier one (R132, R141). -/
def setInputChannel (ch : Channel) (s : State) : Host.Outcome State Fault Refusal :=
  match s.status with
  | .ready => .next (s.setInput ch)
  | .running => .refused .bindOutsideReady
  | .halted => .refused .bindOutsideReady
  | .faulted => .refused .bindOutsideReady

/-- `set_output_channel(ch)`: only in READY; a later binding replaces an earlier one (R132, R141). -/
def setOutputChannel (ch : Channel) (s : State) : Host.Outcome State Fault Refusal :=
  match s.status with
  | .ready => .next (s.setOutput ch)
  | .running => .refused .bindOutsideReady
  | .halted => .refused .bindOutsideReady
  | .faulted => .refused .bindOutsideReady

/-- `execute()` begins the run: only in READY (R133, R145). The two channels are two values, so the aliased case
R142 refuses cannot be written (log 8). -/
def execute (s : State) : Host.Outcome State Fault Refusal :=
  match s.status with
  | .ready => .next (s.setStatus .running)
  | .running => .refused .executeOutsideReady
  | .halted => .refused .executeOutsideReady
  | .faulted => .refused .executeOutsideReady

/-- The host writes a value to the bound input channel before the run (R76, R134, R137). -/
def supplyInput (v : Word) (s : State) : Host.Outcome State Fault Refusal :=
  match s.status, s.input with
  | .ready, some ch => .next (s.setInput (ch.write v))
  | .ready, none => .refused .noChannelBound
  | .running, _ => .refused .noSuchHostMove
  | .halted, _ => .refused .noSuchHostMove
  | .faulted, _ => .refused .noSuchHostMove

/-- The run has ended: `STATUS` is HALTED or FAULTED (R138). -/
def State.ended (s : State) : Bool := s.status == .halted || s.status == .faulted

/-- After the run the host reads a memory cell; none before the end or outside memory (R136). -/
def inspectCell (a : Int) (s : State) : Option Word := if s.ended then s.mem.cell? a else none

/-- After the run the host tests the output channel (R72, R136); false where none is bound or the run has not
ended. -/
def outputReadable (s : State) : Bool :=
  match s.output with
  | none => false
  | some ch => s.ended && ch.canRead

/-- After the run the host consumes one element of the output channel (R73, R136): the state left. -/
def collectOutput (s : State) : Host.Outcome State Fault Refusal :=
  match s.ended, s.output with
  | false, _ => .refused .noSuchHostMove
  | true, none => .refused .noChannelBound
  | true, some ch =>
    match ch.read with
    | .error .exhausted => .refused .channelExhausted
    | .ok p => .next (s.setOutput p.2)

/-- The element `collectOutput` returns. -/
def collectedValue (s : State) : Option Word :=
  match s.output with
  | none => none
  | some ch => if s.ended then ch.items[ch.cur]? else none

/-- A chain of engines: the finished engine's output channel becomes the input channel of an engine in READY (R124). -/
def handOff (finished later : State) : Host.Outcome State Fault Refusal :=
  match finished.ended, finished.output with
  | false, _ => .refused .noSuchHostMove
  | true, none => .refused .noChannelBound
  | true, some ch => setInputChannel ch later

/-- Cells put one after another from address `a`. -/
def Memory.putAll (m : Memory) (a : Int) : List Word → Memory
  | [] => m
  | v :: rest => (m.put a v).putAll (a + 1) rest

/-- Where a program of `n` cells is placed: at `pc` where it fits there, else at the entry point. -/
def State.placeFor (s : State) (n : Nat) : Word :=
  if 0 ≤ s.pc.toInt && s.pc.toInt + n ≤ Config.maxLen then s.pc else Config.entry

/-- A program's cells loaded from outside and the run begun: memory reaches as far as the cells, they stand where the
next fetch looks, `STATUS` is RUNNING and `CAUSE` 0 (log 4). -/
def State.loaded (s : State) (cells : List Word) : State :=
  let p := s.placeFor cells.length
  let len := max s.mem.len (p.toNat + cells.length)
  { s with
    mem := Memory.putAll ⟨len, s.mem.cells⟩ p.toInt cells
    pc := p
    status := .running
    cause := none }

end Sys2Proof.Machine
end

