-- ==== Sys2Proof/Machine/Step.lean ====
section
/-! DEFINITION. The step function (spec/41_cycle.md R80, R92), and a program's cells placed where it fetches. -/

namespace Sys2Proof.Machine

/-- One step: a cycle when `STATUS` is RUNNING, and no step otherwise (R92). -/
def step (s : State) : Host.Outcome State Fault Refusal :=
  match s.status with
  | .ready => .fault .notStarted
  | .running => cycle s
  | .halted => .fault .runHalted
  | .faulted => .fault .runFaulted

/-- `s` with the instruction whose bits are `w` loaded where the next step fetches it, and the run begun (log 4). -/
def State.withFetchWord (s : State) (nbits w : Nat) : State :=
  s.loaded ((List.range Config.longestInstruction).map (tableCell nbits w))

end Sys2Proof.Machine
end

