-- ==== Sys2Proof/Machine/Run.lean ====
section
/-! DEFINITION. The run loop under fuel (spec/41_cycle.md R87, R89) and the outcome the host sees (spec/60_exceptions.md
R118). -/

namespace Sys2Proof.Machine

/-- At most `n` cycles, taken while `STATUS` is RUNNING (R87). -/
def run : Nat → State → State
  | 0, s => s
  | n + 1, s =>
    match step s with
    | .next t => run n t
    | .fault _ => s
    | .refused _ => s

/-- What a run has come to (R118). Out of fuel is `stillRunning`, neither a halt nor a fault (R89). -/
inductive RunOutcome where
  | notStarted
  | stillRunning
  | halted
  | faulted (code : Nat)
  deriving DecidableEq, Repr

/-- The outcome as `STATUS` and `CAUSE` give it (R118). -/
def State.outcome (s : State) : RunOutcome :=
  match s.status with
  | .ready => .notStarted
  | .running => .stillRunning
  | .halted => .halted
  | .faulted => .faulted (causeCode s.cause)

/-- The elements `n` successive `ChanRead`s return, and the channel they leave; none if one of them fails (R74). -/
def Channel.drain : Nat → Channel → Option (List Word × Channel)
  | 0, ch => some ([], ch)
  | n + 1, ch =>
    match ch.read with
    | .error _ => none
    | .ok p =>
      match Channel.drain n p.2 with
      | none => none
      | some q => some (p.1 :: q.1, q.2)

end Sys2Proof.Machine
end

