-- ==== Sys2Proof/WellFormed.lean ====
section
/-! DEFINITION. Which written terms are instructions (R65), which instructions are written in the canonical way (R66),
and which images a machine can be constructed from (R6). -/

namespace Sys2Proof

/-- The decoder's result as the spec words it: a pair of an operation and a sequence of arguments (R65). A term may
have any number of arguments; only a well-formed one is an instruction. -/
structure Term where
  op : Op
  args : List Arg
  deriving DecidableEq, Repr

/-- "argument count is exactly determined by the operation kind" (R65, R51). -/
def Term.wellFormed (t : Term) : Bool := t.args.length == t.op.argc

/-- The instruction a term stands for; none where the argument count is not the operation's. -/
def Term.toInstr (t : Term) : Option Instr :=
  match t.op, t.args with
  | .add, [a0, a1, a2] => some (.add a0 a1 a2)
  | .multiply, [a0, a1, a2] => some (.multiply a0 a1 a2)
  | .read, [a0] => some (.read a0)
  | .write, [a0] => some (.write a0)
  | .jumpIfTrue, [a0, a1] => some (.jumpIfTrue a0 a1)
  | .jumpIfFalse, [a0, a1] => some (.jumpIfFalse a0 a1)
  | .lessThan, [a0, a1, a2] => some (.lessThan a0 a1 a2)
  | .equals, [a0, a1, a2] => some (.equals a0 a1 a2)
  | .halt, [] => some .halt
  | _, _ => none

/-- The destination argument, for the operations that have one (R54). -/
def Instr.destination : Instr → Option Arg
  | .add _ _ a2 => some a2
  | .multiply _ _ a2 => some a2
  | .read a0 => some a0
  | .write _ => none
  | .jumpIfTrue _ _ => none
  | .jumpIfFalse _ _ => none
  | .lessThan _ _ a2 => some a2
  | .equals _ _ a2 => some a2
  | .halt => none

/-- A canonical instruction writes the ignored digit of its destination as 0 (R66). Every `Instr` is well formed and
can be decoded from memory; only a canonical one is what `encode` writes for a program in the notation of R67. -/
def Instr.canonical (i : Instr) : Bool :=
  match i.destination with
  | none => true
  | some d => d.mode == .position

/-- An image's length is in the range of `LEN` (R6). -/
def imageLengthOk (n : Nat) : Bool := n ≤ Config.maxLen

/-- An instruction at address `a` of a memory of `len` cells has all its cells in range (R58). -/
def Instr.fitsAt (i : Instr) (a : Int) (len : Nat) : Bool := 0 ≤ a && a + i.length ≤ len

end Sys2Proof
end

