-- ==== Sys2Proof/Safety.lean ====
section
/-! DEFINITION. What counts as a sound state and what a cycle may change, in the terms the statements use. -/

namespace Sys2Proof.Machine

/-- A channel reference's cursor is within its items (R15). -/
def boundWf : Option Channel → Bool
  | none => true
  | some ch => ch.wf

/-- The invariant of the machine: memory in canonical form with `LEN` in its range (R6, R11), both bound channels'
cursors within their items (R15), and `CAUSE` nonzero exactly when `STATUS` is FAULTED (R19). -/
abbrev State.Inv (s : State) : Prop :=
  s.mem.wf = true ∧ boundWf s.input = true ∧ boundWf s.output = true ∧ (s.status = .faulted ↔ s.cause.isSome = true)

/-- `t` is `s` after the fault entry of `c` and nothing else (R115, R116). -/
def FaultEntry (c : Cause) (s t : State) : Prop :=
  t.status = .faulted ∧ t.cause = some c ∧ t.mem = s.mem ∧ t.pc = s.pc ∧ t.input = s.input ∧ t.output = s.output

/-- `t`'s memory is `s`'s with the integer `v` at address `a` and every other cell as before (R31). -/
def StoredAt (a : Int) (v : Int) (s t : State) : Prop :=
  (∃ w, t.mem.cell? a = some w ∧ w.toInt = v) ∧ (∀ b : Int, b ≠ a → t.mem.cell? b = s.mem.cell? b) ∧
    t.mem.len = s.mem.len

/-- `STATUS` and `CAUSE` are as before. -/
def SameOutcome (s t : State) : Prop := t.status = s.status ∧ t.cause = s.cause

/-- Both channels, bound or not, are as before. -/
def SameChannels (s t : State) : Prop := t.input = s.input ∧ t.output = s.output

/-- The value argument raises `OutOfBounds` when resolved: it is in Position mode and its raw value is no valid address
(R32, R83). -/
def Unreadable (s : State) (arg : Arg) : Prop := arg.mode = .position ∧ s.mem.inRange arg.raw.toInt = false

/-- The address an instruction stores to, for the operations with a destination argument (R33, R54). -/
def storeAddress (i : Instr) : Option Int := i.destination.map (fun d => (dst d).toInt)

end Sys2Proof.Machine
end

