-- ==== Sys2Proof/Certificates/Slice0/Obligations.lean ====
section
/-! DEFINITION. The statements about the machine, each from a numbered rule of spec/. Where a clause rests on a decision
of spec/92_eei_decisions.md or on a choice of the model, its docstring names it. -/

namespace Sys2Proof.Machine

/-- Executing `i` at `s` raises `c`: the next state is `s` with the fault entry of `c` (R115, R116). -/
def Raises (i : Instr) (s : State) (c : Cause) : Prop := ∃ t, exec i s = .next t ∧ FaultEntry c s t

/-- The first failing test of a list of tests made in order. -/
def firstCause : List (Bool × Cause) → Option Cause
  | [] => none
  | (fails, c) :: rest => if fails then some c else firstCause rest

/-- The tests of an operation's arguments in the order of R60: for each argument its mode digit, then its cell. -/
def argumentTests (fetch : Nat → Option Word) (w : Word) (n : Nat) : List (Bool × Cause) :=
  (List.range n).flatMap fun k =>
    [(decide (2 ≤ digit w.toNat (k + 2)), Cause.invalidMode), ((fetch (1 + k)).isNone, Cause.outOfBounds)]

/-- The decoder's tests in the order of R60: the word's address, the opcode, the arguments. -/
def decoderTests (fetch : Nat → Option Word) : List (Bool × Cause) :=
  match fetch 0 with
  | none => [(true, .outOfBounds)]
  | some w =>
    (decide (w.toInt < 0 ∨ w.toInt % 100 ∉ ([1, 2, 3, 4, 5, 6, 7, 8, 99] : List Int)), .invalidOpcode) ::
      argumentTests fetch w (if w.toInt % 100 = 99 then 0
        else if w.toInt % 100 = 3 ∨ w.toInt % 100 = 4 then 1
        else if w.toInt % 100 = 5 ∨ w.toInt % 100 = 6 then 2
        else 3)

/-- The instruction is a jump whose condition holds in `s`, with the target argument `target` (R100, R101). -/
def Redirects (s : State) : Instr → Arg → Prop
  | .jumpIfTrue a0 a1, target => a1 = target ∧ ∃ c, s.val a0 = .ok c ∧ c.toInt ≠ 0
  | .jumpIfFalse a0 a1, target => a1 = target ∧ ∃ c, s.val a0 = .ok c ∧ c.toInt = 0
  | _, _ => False

/-- The 28 canonical words, as R66 lists them. -/
def canonicalWords : List Int :=
  [1, 101, 1001, 1101, 2, 102, 1002, 1102, 3, 4, 104, 5, 105, 1005, 1105, 6, 106, 1006, 1106,
    7, 107, 1007, 1107, 8, 108, 1008, 1108, 99]

/-- The causes an operation's own rule can raise: the rows marked X in the table of R120. -/
def executionCauses : Op → List Cause
  | .add => [.outOfBounds, .arithmeticOverflow]
  | .multiply => [.outOfBounds, .arithmeticOverflow]
  | .read => [.noInputChannel, .inputExhausted, .outOfBounds]
  | .write => [.outOfBounds, .noOutputChannel]
  | .jumpIfTrue => [.outOfBounds]
  | .jumpIfFalse => [.outOfBounds]
  | .lessThan => [.outOfBounds]
  | .equals => [.outOfBounds]
  | .halt => []

end Sys2Proof.Machine

open Sys2Proof Sys2Proof.Machine

/-! ## Encoding -/

/-- One word of each operation, from the source's scenarios (spec/95_test_vectors.md section 1.1). -/
def Obligations.RepresentativeWordsDecode : Prop :=
  decodeCells [1, 0, 0, 0] = .ok (.add ⟨0, .position⟩ ⟨0, .position⟩ ⟨0, .position⟩) ∧
  decodeCells [1002, 4, 3, 4] = .ok (.multiply ⟨4, .position⟩ ⟨3, .immediate⟩ ⟨4, .position⟩) ∧
  decodeCells [3, 21] = .ok (.read ⟨21, .position⟩) ∧
  decodeCells [104, 999] = .ok (.write ⟨999, .immediate⟩) ∧
  decodeCells [1005, 20, 22] = .ok (.jumpIfTrue ⟨20, .position⟩ ⟨22, .immediate⟩) ∧
  decodeCells [1106, 0, 36] = .ok (.jumpIfFalse ⟨0, .immediate⟩ ⟨36, .immediate⟩) ∧
  decodeCells [107, 8, 21, 20] = .ok (.lessThan ⟨8, .immediate⟩ ⟨21, .position⟩ ⟨20, .position⟩) ∧
  decodeCells [1008, 21, 8, 20] = .ok (.equals ⟨21, .position⟩ ⟨8, .immediate⟩ ⟨20, .position⟩) ∧
  decodeCells [99] = .ok .halt

/-- Decoding an encoded instruction gives it back, every argument at every raw value and in both modes, whatever cells
follow it. -/
def Obligations.DecodeOfEncodeIsTheInstruction : Prop :=
  ∀ (i : Instr) (rest : List Word), decodeCells (encode i ++ rest) = .ok i

/-- The words of canonical instructions are exactly the 28 that R66 lists. -/
def Obligations.CanonicalWordsAreTheListed : Prop :=
  (∀ i : Instr, i.canonical = true → (encodeWord i).toInt ∈ canonicalWords) ∧
  (∀ W ∈ canonicalWords, ∃ i : Instr, i.canonical = true ∧ (encodeWord i).toInt = W)

/-- The classes of R62: every word, with all argument cells it could need present, is an invalid opcode, a bad mode, or
decodes to the operation, modes and raw values its digits and cells give. The outcome of a negative word is the spec's
decision D1, and the examination of the argument digits alone its D2 and D3. -/
def Obligations.WordClassesDecideTheOutcome : Prop :=
  ∀ (fetch : Nat → Option Word) (w r0 r1 r2 : Word),
    fetch 0 = some w → fetch 1 = some r0 → fetch 2 = some r1 → fetch 3 = some r2 →
      (w.toInt < 0 → decode fetch = .error .invalidOpcode) ∧
      (0 ≤ w.toInt → w.toInt % 100 ∉ ([1, 2, 3, 4, 5, 6, 7, 8, 99] : List Int) →
        decode fetch = .error .invalidOpcode) ∧
      (∀ op : Op, 0 ≤ w.toInt → w.toInt % 100 = op.code → (∃ k < op.argc, 2 ≤ digit w.toNat (k + 2)) →
        decode fetch = .error .invalidMode) ∧
      (∀ op : Op, 0 ≤ w.toInt → w.toInt % 100 = op.code → (∀ k < op.argc, digit w.toNat (k + 2) ≤ 1) →
        ∃ i, decode fetch = .ok i ∧ i.op = op ∧ i.args.length = op.argc ∧
          ∀ k < op.argc, ∃ a, i.args[k]? = some a ∧ fetch (1 + k) = some a.raw ∧
            a.mode.digit = digit w.toNat (k + 2))

/-- The decoder reports the first test that fails, in the order of R60, and reports nothing else. The order of a mode
digit before its cell is the spec's decision D6. -/
def Obligations.DecoderReportsItsFirstFailingTest : Prop :=
  ∀ (fetch : Nat → Option Word) (c : Cause), decode fetch = .error c ↔ firstCause (decoderTests fetch) = some c

/-- Digits above the last argument's have no effect (R56; the spec's decision D2): two nonnegative words that agree below
weight `10^(argc+2)` decode alike. -/
def Obligations.UnexaminedDigitsHaveNoEffect : Prop :=
  ∀ (fetch fetch' : Nat → Option Word) (w w' : Word) (op : Op),
    fetch 0 = some w → fetch' 0 = some w' → (∀ k, 1 ≤ k → fetch k = fetch' k) →
    0 ≤ w.toInt → 0 ≤ w'.toInt → w.toInt % 100 = op.code →
    w.toInt % 10 ^ (op.argc + 2) = w'.toInt % 10 ^ (op.argc + 2) →
    decode fetch = decode fetch'

/-- A destination's mode has no effect on execution (R55; the spec's decision D3). -/
def Obligations.DestinationModeHasNoEffect : Prop :=
  ∀ (a0 a1 : Arg) (raw : Word) (m m' : Mode) (s : State),
    exec (.add a0 a1 ⟨raw, m⟩) s = exec (.add a0 a1 ⟨raw, m'⟩) s ∧
    exec (.multiply a0 a1 ⟨raw, m⟩) s = exec (.multiply a0 a1 ⟨raw, m'⟩) s ∧
    exec (.read ⟨raw, m⟩) s = exec (.read ⟨raw, m'⟩) s ∧
    exec (.lessThan a0 a1 ⟨raw, m⟩) s = exec (.lessThan a0 a1 ⟨raw, m'⟩) s ∧
    exec (.equals a0 a1 ⟨raw, m⟩) s = exec (.equals a0 a1 ⟨raw, m'⟩) s

/-- What decodes is decided by the instruction's own cells: other contents of memory beyond them change nothing (R46,
R64). -/
def Obligations.DecodeDependsOnlyOnTheInstructionsCells : Prop :=
  ∀ (fetch fetch' : Nat → Option Word) (i : Instr), decode fetch = .ok i →
    (∀ k < i.length, (fetch k).isSome = true) ∧
    ((∀ k < i.length, fetch' k = fetch k) → decode fetch' = .ok i)

/-! ## Memory and operands -/

/-- Every valid address is readable and writable and no other is (R32): a read gives the cell, a write makes it read as
the value and changes no other cell; outside `[0, LEN)`, negative addresses included, both raise `OutOfBounds`. -/
def Obligations.ExactlyTheValidAddressesAreAccessible : Prop :=
  ∀ (m : Memory) (a : Int) (v : Word),
    (0 ≤ a ∧ a < m.len → (∃ u, m.read a = .ok u) ∧
      ∃ m', m.write a v = .ok m' ∧ m'.read a = .ok v ∧ m'.len = m.len ∧ ∀ b, b ≠ a → m'.read b = m.read b) ∧
    (a < 0 ∨ m.len ≤ a → m.read a = .error .outOfBounds ∧ m.write a v = .error .outOfBounds)

/-- Value arguments resolve through their mode, one level deep (R83), and destination arguments do not consult theirs
(R84). -/
def Obligations.ArgumentsResolveByRoleAndMode : Prop :=
  ∀ (s : State) (r : Word),
    s.val ⟨r, .immediate⟩ = .ok r ∧
    (∀ v, s.mem.cell? r.toInt = some v → s.val ⟨r, .position⟩ = .ok v ∧ s.val ⟨r, .position⟩ = s.val ⟨v, .immediate⟩) ∧
    (r.toInt < 0 ∨ s.mem.len ≤ r.toInt → s.val ⟨r, .position⟩ = .error .outOfBounds) ∧
    (∀ m, dst ⟨r, m⟩ = r)

/-- An Immediate and a Position argument give the same result when the cell holds the literal (R83's testable property,
Q2 of spec/95_test_vectors.md), for every instruction with a value argument and in every place. -/
def Obligations.ImmediateAndPositionAgree : Prop :=
  ∀ (s : State) (r v : Word) (b d : Arg), s.mem.cell? r.toInt = some v →
    exec (.add ⟨r, .position⟩ b d) s = exec (.add ⟨v, .immediate⟩ b d) s ∧
    exec (.add b ⟨r, .position⟩ d) s = exec (.add b ⟨v, .immediate⟩ d) s ∧
    exec (.multiply ⟨r, .position⟩ b d) s = exec (.multiply ⟨v, .immediate⟩ b d) s ∧
    exec (.multiply b ⟨r, .position⟩ d) s = exec (.multiply b ⟨v, .immediate⟩ d) s ∧
    exec (.write ⟨r, .position⟩) s = exec (.write ⟨v, .immediate⟩) s ∧
    exec (.jumpIfTrue ⟨r, .position⟩ b) s = exec (.jumpIfTrue ⟨v, .immediate⟩ b) s ∧
    exec (.jumpIfTrue b ⟨r, .position⟩) s = exec (.jumpIfTrue b ⟨v, .immediate⟩) s ∧
    exec (.jumpIfFalse ⟨r, .position⟩ b) s = exec (.jumpIfFalse ⟨v, .immediate⟩ b) s ∧
    exec (.jumpIfFalse b ⟨r, .position⟩) s = exec (.jumpIfFalse b ⟨v, .immediate⟩) s ∧
    exec (.lessThan ⟨r, .position⟩ b d) s = exec (.lessThan ⟨v, .immediate⟩ b d) s ∧
    exec (.lessThan b ⟨r, .position⟩ d) s = exec (.lessThan b ⟨v, .immediate⟩ d) s ∧
    exec (.equals ⟨r, .position⟩ b d) s = exec (.equals ⟨v, .immediate⟩ b d) s ∧
    exec (.equals b ⟨r, .position⟩ d) s = exec (.equals b ⟨v, .immediate⟩ d) s

/-! ## The instructions -/

/-- Add (rule R94): completion with the exact sum and its frame, the faults in the order tested, the encoding. Overflow
as a fault is the spec's decision D4, and the order of the faults its D6, their precision its D7. -/
def Obligations.AddFollowsItsRule : Prop :=
  ∀ (a0 a1 a2 : Arg) (s : State),
    (∀ x y, s.val a0 = .ok x → s.val a1 = .ok y → -2 ^ 63 ≤ x.toInt + y.toInt → x.toInt + y.toInt ≤ 2 ^ 63 - 1 →
      s.mem.inRange (dst a2).toInt = true →
      ∃ t, exec (.add a0 a1 a2) s = .next t ∧ StoredAt (dst a2).toInt (x.toInt + y.toInt) s t ∧ t.pc = s.pc + 4 ∧
        SameOutcome s t ∧ SameChannels s t) ∧
    (Unreadable s a0 → Raises (.add a0 a1 a2) s .outOfBounds) ∧
    (∀ x, s.val a0 = .ok x → Unreadable s a1 → Raises (.add a0 a1 a2) s .outOfBounds) ∧
    (∀ x y, s.val a0 = .ok x → s.val a1 = .ok y → x.toInt + y.toInt < -2 ^ 63 ∨ 2 ^ 63 - 1 < x.toInt + y.toInt →
      Raises (.add a0 a1 a2) s .arithmeticOverflow) ∧
    (∀ x y, s.val a0 = .ok x → s.val a1 = .ok y → -2 ^ 63 ≤ x.toInt + y.toInt → x.toInt + y.toInt ≤ 2 ^ 63 - 1 →
      s.mem.inRange (dst a2).toInt = false → Raises (.add a0 a1 a2) s .outOfBounds) ∧
    (∀ m0 m1 r0 r1 r2, decodeCells [BitVec.ofNat 64 (1 + 100 * m0.digit + 1000 * m1.digit), r0, r1, r2] =
      .ok (.add ⟨r0, m0⟩ ⟨r1, m1⟩ ⟨r2, .position⟩))

/-- Multiply (rule R95): completion with the exact product and its frame, the faults in the order tested, the encoding.
Overflow as a fault is the spec's decision D4, and the order of the faults its D6, their precision its D7. -/
def Obligations.MultiplyFollowsItsRule : Prop :=
  ∀ (a0 a1 a2 : Arg) (s : State),
    (∀ x y, s.val a0 = .ok x → s.val a1 = .ok y → -2 ^ 63 ≤ x.toInt * y.toInt → x.toInt * y.toInt ≤ 2 ^ 63 - 1 →
      s.mem.inRange (dst a2).toInt = true →
      ∃ t, exec (.multiply a0 a1 a2) s = .next t ∧ StoredAt (dst a2).toInt (x.toInt * y.toInt) s t ∧
        t.pc = s.pc + 4 ∧ SameOutcome s t ∧ SameChannels s t) ∧
    (Unreadable s a0 → Raises (.multiply a0 a1 a2) s .outOfBounds) ∧
    (∀ x, s.val a0 = .ok x → Unreadable s a1 → Raises (.multiply a0 a1 a2) s .outOfBounds) ∧
    (∀ x y, s.val a0 = .ok x → s.val a1 = .ok y → x.toInt * y.toInt < -2 ^ 63 ∨ 2 ^ 63 - 1 < x.toInt * y.toInt →
      Raises (.multiply a0 a1 a2) s .arithmeticOverflow) ∧
    (∀ x y, s.val a0 = .ok x → s.val a1 = .ok y → -2 ^ 63 ≤ x.toInt * y.toInt → x.toInt * y.toInt ≤ 2 ^ 63 - 1 →
      s.mem.inRange (dst a2).toInt = false → Raises (.multiply a0 a1 a2) s .outOfBounds) ∧
    (∀ m0 m1 r0 r1 r2, decodeCells [BitVec.ofNat 64 (2 + 100 * m0.digit + 1000 * m1.digit), r0, r1, r2] =
      .ok (.multiply ⟨r0, m0⟩ ⟨r1, m1⟩ ⟨r2, .position⟩))

/-- Read (rule R98): one element consumed and stored, the faults in the order tested with nothing consumed, the encoding
with either digit. The order of the faults is the spec's decision D6, their precision its D7, the accepted digit 1 its
D3. -/
def Obligations.ReadFollowsItsRule : Prop :=
  ∀ (a0 : Arg) (s : State),
    (∀ ch v, s.input = some ch → ch.items[ch.cur]? = some v → s.mem.inRange (dst a0).toInt = true →
      ∃ t, exec (.read a0) s = .next t ∧ StoredAt (dst a0).toInt v.toInt s t ∧ t.pc = s.pc + 2 ∧
        t.input = some ⟨ch.items, ch.cur + 1⟩ ∧ t.output = s.output ∧ SameOutcome s t) ∧
    (s.input = none → Raises (.read a0) s .noInputChannel) ∧
    (∀ ch, s.input = some ch → ch.items.length ≤ ch.cur → Raises (.read a0) s .inputExhausted) ∧
    (∀ ch, s.input = some ch → ch.cur < ch.items.length → s.mem.inRange (dst a0).toInt = false →
      Raises (.read a0) s .outOfBounds) ∧
    (∀ m r, decodeCells [BitVec.ofNat 64 (3 + 100 * m.digit), r] = .ok (.read ⟨r, m⟩))

/-- Write (rule R99): one element appended and memory as it was, the faults in the order tested, the encoding. The order
of the faults is the spec's decision D6, their precision its D7. -/
def Obligations.WriteFollowsItsRule : Prop :=
  ∀ (a0 : Arg) (s : State),
    (∀ ch v, s.val a0 = .ok v → s.output = some ch →
      ∃ t, exec (.write a0) s = .next t ∧ t.output = some ⟨ch.items ++ [v], ch.cur⟩ ∧ t.input = s.input ∧
        t.mem = s.mem ∧ t.pc = s.pc + 2 ∧ SameOutcome s t) ∧
    (Unreadable s a0 → Raises (.write a0) s .outOfBounds) ∧
    (∀ v, s.val a0 = .ok v → s.output = none → Raises (.write a0) s .noOutputChannel) ∧
    (∀ m r, decodeCells [BitVec.ofNat 64 (4 + 100 * m.digit), r] = .ok (.write ⟨r, m⟩))

/-- JumpIfTrue (rule R100): taken for every non-zero condition, with `pc` exactly the target; else `pc + 3` whatever the
target argument; only `pc` is written; the faults; the encoding. Storing any target untested is the spec's decision D5,
leaving the target unresolved when the jump is not taken its D19, the precision of the faults its D7 (log 7). -/
def Obligations.JumpIfTrueFollowsItsRule : Prop :=
  ∀ (a0 a1 : Arg) (s : State),
    (∀ c target, s.val a0 = .ok c → c.toInt ≠ 0 → s.val a1 = .ok target →
      ∃ t, exec (.jumpIfTrue a0 a1) s = .next t ∧ t.pc = target ∧ t.mem = s.mem ∧ SameOutcome s t ∧
        SameChannels s t) ∧
    (∀ c, s.val a0 = .ok c → c.toInt = 0 →
      ∃ t, exec (.jumpIfTrue a0 a1) s = .next t ∧ t.pc = s.pc + 3 ∧ t.mem = s.mem ∧ SameOutcome s t ∧
        SameChannels s t) ∧
    (Unreadable s a0 → Raises (.jumpIfTrue a0 a1) s .outOfBounds) ∧
    (∀ c, s.val a0 = .ok c → c.toInt ≠ 0 → Unreadable s a1 → Raises (.jumpIfTrue a0 a1) s .outOfBounds) ∧
    (∀ m0 m1 r0 r1, decodeCells [BitVec.ofNat 64 (5 + 100 * m0.digit + 1000 * m1.digit), r0, r1] =
      .ok (.jumpIfTrue ⟨r0, m0⟩ ⟨r1, m1⟩))

/-- JumpIfFalse (rule R101): taken for the condition 0 exactly, with `pc` exactly the target; else `pc + 3` whatever the
target argument; only `pc` is written; the faults; the encoding. Storing any target untested is the spec's decision D5,
leaving the target unresolved when the jump is not taken its D19, the precision of the faults its D7 (log 7). -/
def Obligations.JumpIfFalseFollowsItsRule : Prop :=
  ∀ (a0 a1 : Arg) (s : State),
    (∀ c target, s.val a0 = .ok c → c.toInt = 0 → s.val a1 = .ok target →
      ∃ t, exec (.jumpIfFalse a0 a1) s = .next t ∧ t.pc = target ∧ t.mem = s.mem ∧ SameOutcome s t ∧
        SameChannels s t) ∧
    (∀ c, s.val a0 = .ok c → c.toInt ≠ 0 →
      ∃ t, exec (.jumpIfFalse a0 a1) s = .next t ∧ t.pc = s.pc + 3 ∧ t.mem = s.mem ∧ SameOutcome s t ∧
        SameChannels s t) ∧
    (Unreadable s a0 → Raises (.jumpIfFalse a0 a1) s .outOfBounds) ∧
    (∀ c, s.val a0 = .ok c → c.toInt = 0 → Unreadable s a1 → Raises (.jumpIfFalse a0 a1) s .outOfBounds) ∧
    (∀ m0 m1 r0 r1, decodeCells [BitVec.ofNat 64 (6 + 100 * m0.digit + 1000 * m1.digit), r0, r1] =
      .ok (.jumpIfFalse ⟨r0, m0⟩ ⟨r1, m1⟩))

/-- LessThan (rule R103): 1 or 0 by the signed order of the integers, with its frame; the faults; the encoding. The
precision of the faults is the spec's decision D7 (log 7). -/
def Obligations.LessThanFollowsItsRule : Prop :=
  ∀ (a0 a1 a2 : Arg) (s : State),
    (∀ x y, s.val a0 = .ok x → s.val a1 = .ok y → s.mem.inRange (dst a2).toInt = true →
      ∃ t, exec (.lessThan a0 a1 a2) s = .next t ∧
        StoredAt (dst a2).toInt (if x.toInt < y.toInt then 1 else 0) s t ∧ t.pc = s.pc + 4 ∧ SameOutcome s t ∧
        SameChannels s t) ∧
    (Unreadable s a0 → Raises (.lessThan a0 a1 a2) s .outOfBounds) ∧
    (∀ x, s.val a0 = .ok x → Unreadable s a1 → Raises (.lessThan a0 a1 a2) s .outOfBounds) ∧
    (∀ x y, s.val a0 = .ok x → s.val a1 = .ok y → s.mem.inRange (dst a2).toInt = false →
      Raises (.lessThan a0 a1 a2) s .outOfBounds) ∧
    (∀ m0 m1 r0 r1 r2, decodeCells [BitVec.ofNat 64 (7 + 100 * m0.digit + 1000 * m1.digit), r0, r1, r2] =
      .ok (.lessThan ⟨r0, m0⟩ ⟨r1, m1⟩ ⟨r2, .position⟩))

/-- Equals (rule R104): 1 or 0 by equality of the integers, with its frame; the faults; the encoding. The precision of the
faults is the spec's decision D7 (log 7). -/
def Obligations.EqualsFollowsItsRule : Prop :=
  ∀ (a0 a1 a2 : Arg) (s : State),
    (∀ x y, s.val a0 = .ok x → s.val a1 = .ok y → s.mem.inRange (dst a2).toInt = true →
      ∃ t, exec (.equals a0 a1 a2) s = .next t ∧
        StoredAt (dst a2).toInt (if x.toInt = y.toInt then 1 else 0) s t ∧ t.pc = s.pc + 4 ∧ SameOutcome s t ∧
        SameChannels s t) ∧
    (Unreadable s a0 → Raises (.equals a0 a1 a2) s .outOfBounds) ∧
    (∀ x, s.val a0 = .ok x → Unreadable s a1 → Raises (.equals a0 a1 a2) s .outOfBounds) ∧
    (∀ x y, s.val a0 = .ok x → s.val a1 = .ok y → s.mem.inRange (dst a2).toInt = false →
      Raises (.equals a0 a1 a2) s .outOfBounds) ∧
    (∀ m0 m1 r0 r1 r2, decodeCells [BitVec.ofNat 64 (8 + 100 * m0.digit + 1000 * m1.digit), r0, r1, r2] =
      .ok (.equals ⟨r0, m0⟩ ⟨r1, m1⟩ ⟨r2, .position⟩))

/-- Halt (rule R105): it always completes, writes `STATUS` only, and is followed by no cycle; every nonnegative word
with low digits 99 is Halt, whatever follows it. That the digits above the opcode are not examined is the spec's decision
D2 (log 7). -/
def Obligations.HaltFollowsItsRule : Prop :=
  (∀ s : State, ∃ t, exec .halt s = .next t ∧ t.status = .halted ∧ t.pc = s.pc ∧ t.mem = s.mem ∧ t.cause = s.cause ∧
    SameChannels s t ∧ ∀ u, step t ≠ .next u) ∧
  (∀ (w : Word) (rest : List Word), 0 ≤ w.toInt → w.toInt % 100 = 99 → decodeCells (w :: rest) = .ok .halt)

/-! ## The cycle -/

/-- In RUNNING, a step is the execution of the instruction the decoder reads at `pc`, cell by cell from current memory
(R80, R81, R82). -/
def Obligations.StepRunsTheDecodedInstruction : Prop :=
  ∀ (s : State) (i : Instr), s.status = .running → decode s.fetch = .ok i →
    step s = exec i s ∧ ∀ k : Nat, s.fetch k = s.mem.cell? (s.pc.toInt + k)

/-- An instruction whose encoding stands in memory at `pc` is the one the next step runs: what was stored there is seen,
with nothing in between (R44, R80). -/
def Obligations.InstructionStandingAtPcIsRun : Prop :=
  ∀ (s : State) (i : Instr), s.status = .running →
    (∀ k < (encode i).length, s.mem.cell? (s.pc.toInt + k) = (encode i)[k]?) → step s = exec i s

/-- A decode failure is fatal at once and without partial effects (R88). -/
def Obligations.DecodeFailureIsFatalWithoutEffect : Prop :=
  ∀ (s : State) (c : Cause), s.status = .running → decode s.fetch = .error c →
    ∃ t, step s = .next t ∧ FaultEntry c s t

/-- The cells of an instruction are fetched from the current content of memory at `pc`, and a fetch outside memory raises
`OutOfBounds`: after a bad jump, off the end, in an empty memory (R81). -/
def Obligations.FetchOutsideMemoryFaults : Prop :=
  (∀ (s : State) (k : Nat), s.fetch k = s.mem.cell? (s.pc.toInt + k)) ∧
  (∀ s : State, s.status = .running → s.pc.toInt < 0 ∨ s.mem.len ≤ s.pc.toInt →
    ∃ t, step s = .next t ∧ FaultEntry .outOfBounds s t)

/-- A RUNNING engine always has a next state (R144) and an engine in any other state has none (R92; that the stop is a
named fault of the model is log 6). -/
def Obligations.ExactlyRunningEnginesStep : Prop :=
  (∀ s : State, (∃ t, step s = .next t) ↔ s.status = .running) ∧
  (∀ s : State, s.status = .ready → step s = .fault .notStarted) ∧
  (∀ s : State, s.status = .halted → step s = .fault .runHalted) ∧
  (∀ s : State, s.status = .faulted → step s = .fault .runFaulted)

/-- Faults are precise: a cycle that ends FAULTED made the fault entry on the state it began with and changed nothing else
(R115, R116; the spec's decisions D7, D9, D23). -/
def Obligations.FaultedCyclesChangeNothingElse : Prop :=
  ∀ s t : State, step s = .next t → t.status = .faulted → ∃ c, FaultEntry c s t

/-- Which causes an instruction's own rule can raise, and which its decoding can (the table of R120). -/
def Obligations.CausesEachInstructionCanRaise : Prop :=
  (∀ (i : Instr) (s t : State), s.status ≠ .faulted → exec i s = .next t → t.status = .faulted →
    ∃ c ∈ executionCauses i.op, t.cause = some c) ∧
  (∀ (fetch : Nat → Option Word) (c : Cause), decode fetch = .error c →
    c ∈ [Cause.outOfBounds, .invalidOpcode, .invalidMode])

/-- A run ends normally exactly when a cycle meets a Halt word at `pc` (R138). That no negative word is one is the spec's
decision D1, and that the digits above the low two decide nothing its D2 (log 7). -/
def Obligations.NormalEndExactlyAtAHaltWord : Prop :=
  (∀ s : State, s.ended = true ↔ s.status = .halted ∨ s.status = .faulted) ∧
  (∀ s t : State, step s = .next t →
    (t.status = .halted ↔ ∃ w, s.mem.cell? s.pc.toInt = some w ∧ 0 ≤ w.toInt ∧ w.toInt % 100 = 99))

/-- Where `pc` goes (R85, R86): an instruction that completes without redirecting moves it past its last cell, as
integers and without a wrap, to at most `LEN`; a taken jump leaves it exactly at the target; Halt leaves it. -/
def Obligations.ProgramCounterAdvancesOrRedirects : Prop :=
  ∀ (s t : State) (i : Instr), s.Inv → decode s.fetch = .ok i → step s = .next t → t.status ≠ .faulted →
    (i ≠ .halt → (∀ a, ¬ Redirects s i a) → t.pc.toInt = s.pc.toInt + i.op.argc + 1 ∧ t.pc.toInt ≤ s.mem.len) ∧
    (∀ a, Redirects s i a → s.val a = .ok t.pc) ∧
    (i = .halt → t.pc = s.pc)

/-- A step stores nowhere but at the destination address of its instruction, and never changes `LEN` (R11, R33). -/
def Obligations.StepStoresOnlyAtTheDestination : Prop :=
  ∀ (s t : State), step s = .next t →
    t.mem.len = s.mem.len ∧
    (∀ c, decode s.fetch = .error c → t.mem = s.mem) ∧
    (∀ i, decode s.fetch = .ok i → ∀ b : Int, storeAddress i ≠ some b → t.mem.cell? b = s.mem.cell? b)

/-- Channels only grow at the tail and move forward, one element an instruction: only Read moves the input cursor, only
Write appends to the output, and neither binding changes (R20, R21, R74, R76). -/
def Obligations.ChannelsMoveOneElementAtATime : Prop :=
  ∀ s t : State, step s = .next t →
    (t.input = s.input ∨ ∃ ch a0, s.input = some ch ∧ decode s.fetch = .ok (.read a0) ∧ ch.cur < ch.items.length ∧
      t.input = some ⟨ch.items, ch.cur + 1⟩) ∧
    (t.output = s.output ∨ ∃ ch a0 v, s.output = some ch ∧ decode s.fetch = .ok (.write a0) ∧
      t.output = some ⟨ch.items ++ [v], ch.cur⟩)

/-- Every step keeps the invariant. -/
def Obligations.StepKeepsTheInvariant : Prop :=
  ∀ s t : State, s.Inv → step s = .next t → t.Inv

/-- The state after reset has the invariant. -/
def Obligations.ResetMeetsTheInvariant : Prop := State.reset.Inv

/-- The codes of `STATUS` and `CAUSE` (R18, R106; the numbers of the causes are the spec's decision D8), and no two
values share one. -/
def Obligations.OutcomeCodesAreTheListed : Prop :=
  Status.code .ready = 0 ∧ Status.code .running = 1 ∧ Status.code .halted = 2 ∧ Status.code .faulted = 3 ∧
  causeCode none = 0 ∧ causeCode (some .invalidOpcode) = 1 ∧ causeCode (some .invalidMode) = 2 ∧
  causeCode (some .outOfBounds) = 3 ∧ causeCode (some .noInputChannel) = 4 ∧ causeCode (some .noOutputChannel) = 5 ∧
  causeCode (some .inputExhausted) = 6 ∧ causeCode (some .arithmeticOverflow) = 7

/-- The outcome of a run tells a halt from a fault and one cause from another (R118). -/
def Obligations.OutcomesAreDistinguishable : Prop :=
  ∀ s t : State, s.Inv → t.Inv → s.outcome = t.outcome → s.status = t.status ∧ s.cause = t.cause

/-! ## Runs -/

/-- What the output channel held before the run influences nothing (R93): two runs that differ only in it pass through
the same states and append the same values. -/
def Obligations.OutputHistoryDoesNotInfluenceTheRun : Prop :=
  ∀ (n : Nat) (s : State) (p q : Channel),
    ∃ vs : List Word,
      (run n (s.setOutput p)).output = some ⟨p.items ++ vs, p.cur⟩ ∧
      (run n (s.setOutput q)).output = some ⟨q.items ++ vs, q.cur⟩ ∧
      (run n (s.setOutput p)).mem = (run n (s.setOutput q)).mem ∧
      (run n (s.setOutput p)).pc = (run n (s.setOutput q)).pc ∧
      (run n (s.setOutput p)).status = (run n (s.setOutput q)).status ∧
      (run n (s.setOutput p)).cause = (run n (s.setOutput q)).cause ∧
      (run n (s.setOutput p)).input = (run n (s.setOutput q)).input

/-- Terminal states are absorbing (R145; the refusals are the spec's decisions D13, D15): an ended run never changes,
however much longer it is given, and `execute()` and the setters are not available. -/
def Obligations.EndedRunsAreAbsorbing : Prop :=
  (∀ (n k : Nat) (s : State), (run n s).ended = true → run (n + k) s = run n s) ∧
  (∀ (s : State) (ch : Channel), s.ended = true →
    execute s = .refused .executeOutsideReady ∧ setInputChannel ch s = .refused .bindOutsideReady ∧
    setOutputChannel ch s = .refused .bindOutsideReady)

/-- A run is its cycles one after another (R87): no fuel is no cycle, one unit of fuel is one cycle where the engine takes
one and the run stays where it takes none (R92), and more fuel goes on from where less fuel stopped. -/
def Obligations.RunsCompose : Prop :=
  (∀ s : State, run 0 s = s) ∧
  (∀ (n : Nat) (s t : State), step s = .next t → run (n + 1) s = run n t) ∧
  (∀ (n : Nat) (s : State), (∀ t, step s ≠ .next t) → run n s = s) ∧
  (∀ (n k : Nat) (s : State), run (n + k) s = run k (run n s))

/-! ## Channels -/

/-- `ChanCanRead` and `ChanRead` (R72, R73). -/
def Obligations.ChannelReadFollowsItsRules : Prop :=
  ∀ ch : Channel,
    (ch.canRead = true ↔ ch.cur < ch.items.length) ∧
    (ch.items = [] → ch.canRead = false) ∧
    (∀ v, ch.items[ch.cur]? = some v → ch.read = .ok (v, ⟨ch.items, ch.cur + 1⟩)) ∧
    (ch.canRead = false → ch.read = .error .exhausted)

/-- Order, no loss, no re-read (R74): successive reads return the unconsumed elements in the order they were written,
move the cursor only, and go no further than the elements do; what is written to a channel with nothing unconsumed is
read back in order and exactly once each, `can_read()` false only after all of it; and a write after a failed read makes
the channel readable again. -/
def Obligations.ChannelDeliversInOrderExactlyOnce : Prop :=
  (∀ (ch : Channel) (k : Nat), ch.wf = true →
    (ch.cur + k ≤ ch.items.length →
      Channel.drain k ch = some ((ch.items.drop ch.cur).take k, ⟨ch.items, ch.cur + k⟩)) ∧
    (ch.items.length < ch.cur + k → Channel.drain k ch = none)) ∧
  (∀ (ch : Channel) (vs : List Word), ch.cur = ch.items.length → ∀ k ≤ vs.length,
    ∃ left, Channel.drain k (vs.foldl Channel.write ch) = some (vs.take k, left) ∧
      left.items = ch.items ++ vs ∧ left.cur = ch.cur + k ∧ (left.canRead = true ↔ k < vs.length)) ∧
  (∀ (ch : Channel) (v : Word), ch.wf = true → ch.read = .error .exhausted → (ch.write v).canRead = true)

/-! ## The host -/

/-- Construction copies the image and leaves the reset values (R130). -/
def Obligations.ConstructCopiesTheImage : Prop :=
  ∀ image : List Word, image.length ≤ 2 ^ 63 - 1 →
    (construct image).mem.len = image.length ∧
    (∀ a : Nat, (construct image).mem.cell? a = image[a]?) ∧
    (construct image).pc = 0 ∧ (construct image).status = .ready ∧ (construct image).cause = none ∧
    (construct image).inBound = false ∧ (construct image).outBound = false

/-- Binding is possible in READY only, changes nothing but the binding, and the last one is in effect (R132, R141; the
spec's decisions D13, D14). -/
def Obligations.BindingIsForReadyOnly : Prop :=
  ∀ (s : State) (ch : Channel),
    (s.status = .ready →
      (∃ t, setInputChannel ch s = .next t ∧ t.inBound = true ∧ t.input = some ch ∧ t.output = s.output ∧
        t.mem = s.mem ∧ t.pc = s.pc ∧ SameOutcome s t) ∧
      (∃ t, setOutputChannel ch s = .next t ∧ t.outBound = true ∧ t.output = some ch ∧ t.input = s.input ∧
        t.mem = s.mem ∧ t.pc = s.pc ∧ SameOutcome s t)) ∧
    (s.status ≠ .ready →
      setInputChannel ch s = .refused .bindOutsideReady ∧ setOutputChannel ch s = .refused .bindOutsideReady)

/-- `execute()` begins a run from READY and changes nothing but `STATUS` (R133). -/
def Obligations.ExecuteBeginsTheRun : Prop :=
  ∀ s : State,
    (s.status = .ready → ∃ t, execute s = .next t ∧ t.status = .running ∧ t.cause = s.cause ∧ t.mem = s.mem ∧
      t.pc = s.pc ∧ SameChannels s t) ∧
    (s.status ≠ .ready → execute s = .refused .executeOutsideReady)

/-- After the run the host reads every cell, and consumes the output channel with `ChanCanRead` and `ChanRead`, which
change nothing but its cursor (R73, R136). That a read with nothing left is refused is the model's (log 9). -/
def Obligations.HostInspectsAfterTheRun : Prop :=
  ∀ s : State, s.ended = true →
    (∀ a : Int, inspectCell a s = s.mem.cell? a) ∧
    (∀ ch, s.output = some ch → outputReadable s = ch.canRead) ∧
    (∀ ch v, s.output = some ch → ch.items[ch.cur]? = some v →
      collectedValue s = some v ∧ ∃ t, collectOutput s = .next t ∧ t.output = some ⟨ch.items, ch.cur + 1⟩ ∧
        t.input = s.input ∧ t.mem = s.mem ∧ t.pc = s.pc ∧ SameOutcome s t) ∧
    (∀ ch, s.output = some ch → ch.canRead = false → collectOutput s = .refused .channelExhausted)

/-- In a chain, a finished engine's output channel becomes a later engine's input channel as it stands (R124). -/
def Obligations.ChainHandsTheOutputOver : Prop :=
  ∀ (finished later : State) (ch : Channel), finished.ended = true → finished.output = some ch → later.status = .ready →
    ∃ t, handOff finished later = .next t ∧ t.input = some ch ∧ t.output = later.output ∧ t.mem = later.mem ∧
      t.pc = later.pc ∧ SameOutcome later t

/-- No operation of the host breaks the invariant (R15, R19, R130 to R137). -/
def Obligations.HostOperationsKeepTheInvariant : Prop :=
  (∀ image : List Word, image.length ≤ 2 ^ 63 - 1 → (construct image).Inv) ∧
  (∀ (s t : State) (ch : Channel), s.Inv → ch.wf = true → setInputChannel ch s = .next t → t.Inv) ∧
  (∀ (s t : State) (ch : Channel), s.Inv → ch.wf = true → setOutputChannel ch s = .next t → t.Inv) ∧
  (∀ s t : State, s.Inv → execute s = .next t → t.Inv) ∧
  (∀ (s t : State) (v : Word), s.Inv → supplyInput v s = .next t → t.Inv) ∧
  (∀ s t : State, s.Inv → collectOutput s = .next t → t.Inv) ∧
  (∀ finished later t : State, finished.Inv → later.Inv → handOff finished later = .next t → t.Inv)

/-- The host's moves on bound channels keep to their moments (R76, R135, R137): in READY the host appends at the tail of the
bound input channel and changes nothing else; before the end of a run, RUNNING included, it neither reads nor tests the
output channel, inspects no memory and hands nothing over; and outside READY it supplies no input. That such a move is
refused by name is the model's (log 9). -/
def Obligations.HostChannelMovesKeepToTheirMoments : Prop :=
  (∀ (s : State) (v : Word) (ch : Channel), s.status = .ready → s.input = some ch →
    ∃ t, supplyInput v s = .next t ∧ t.input = some ⟨ch.items ++ [v], ch.cur⟩ ∧ t.output = s.output ∧ t.mem = s.mem ∧
      t.pc = s.pc ∧ SameOutcome s t) ∧
  (∀ (s : State) (v : Word), s.status = .ready → s.input = none → supplyInput v s = .refused .noChannelBound) ∧
  (∀ (s : State) (v : Word), s.status ≠ .ready → supplyInput v s = .refused .noSuchHostMove) ∧
  (∀ s later : State, s.ended = false →
    collectOutput s = .refused .noSuchHostMove ∧ collectedValue s = none ∧ outputReadable s = false ∧
    (∀ a : Int, inspectCell a s = none) ∧ handOff s later = .refused .noSuchHostMove) ∧
  (∀ s later : State, s.ended = true → s.output = none →
    collectOutput s = .refused .noChannelBound ∧ collectedValue s = none ∧ outputReadable s = false ∧
    handOff s later = .refused .noChannelBound)
end

