-- ==== Sys2Proof/Laws/Decode.lean ====
section
/-! SUPPORT. The laws of the decoder's parts. -/

namespace Sys2Proof

/-- A well-formed term is an instruction, and only such a term is (R65). -/
theorem toInstr_isSome_iff (t : Term) : t.toInstr.isSome = t.wellFormed := by
  obtain ⟨op, args⟩ := t
  rcases args with _ | ⟨a, _ | ⟨b, _ | ⟨c, _ | ⟨d, rest⟩⟩⟩⟩ <;> cases op <;> simp [Term.toInstr, Term.wellFormed, Op.argc]

theorem modeOfDigit_digit (m : Mode) : Mode.ofDigit m.digit = some m := by cases m <;> rfl

theorem ofCode_code (op : Op) : Op.ofCode op.code = some op := by cases op <;> rfl

/-- The opcode map has no other entries: it gives an operation at its own code only (R50). -/
theorem ofCode_eq_some {k : Nat} {op : Op} (h : Op.ofCode k = some op) : k = op.code := by
  unfold Op.ofCode at h
  split at h <;> cases h <;> rfl

/-- A mode digit has a mode exactly when it is 0 or 1, and that mode's digit is it (R53). -/
theorem modeOfDigit_eq_some {d : Nat} {m : Mode} (h : Mode.ofDigit d = some m) : d = m.digit := by
  unfold Mode.ofDigit at h
  split at h <;> cases h <;> rfl

theorem modeOfDigit_eq_none {d : Nat} : Mode.ofDigit d = none ↔ 2 ≤ d := by
  rcases d with _ | _ | d
  · simp [Mode.ofDigit]
  · simp [Mode.ofDigit]
  · simp [Mode.ofDigit]

/-- Everything the decoding of one argument can do, in the order of its tests (R60). -/
theorem decodeArg_cases (fetch : Nat → Option Word) (w : Word) (i : Nat) :
    (2 ≤ digit w.toNat (i + 2) ∧ decodeArg fetch w i = .error .invalidMode) ∨
    (digit w.toNat (i + 2) ≤ 1 ∧ fetch (1 + i) = none ∧ decodeArg fetch w i = .error .outOfBounds) ∨
    (∃ raw mode, digit w.toNat (i + 2) = mode.digit ∧ fetch (1 + i) = some raw ∧
      decodeArg fetch w i = .ok ⟨raw, mode⟩) := by
  unfold decodeArg
  cases hm : Mode.ofDigit (digit w.toNat (i + 2)) with
  | none => exact .inl ⟨modeOfDigit_eq_none.1 hm, rfl⟩
  | some mode =>
    right
    have hd := modeOfDigit_eq_some hm
    cases hf : fetch (1 + i) with
    | none => exact .inl ⟨by rw [hd]; cases mode <;> decide, rfl, rfl⟩
    | some raw => exact .inr ⟨raw, mode, hd, rfl, rfl⟩

/-- A nonnegative word's integer and natural values agree. -/
theorem toNat_of_nonneg {w : Word} (h : 0 ≤ w.toInt) : (w.toNat : Int) = w.toInt := by
  rw [BitVec.toInt_eq_toNat_cond] at h ⊢
  split at h <;> split <;> omega

end Sys2Proof
end

