-- ==== Sys2Proof/Laws/Memory.lean ====
section
/-! SUPPORT. The laws of memory: what a cell holds after a write, and that every memory operation keeps the canonical
form. -/

namespace Sys2Proof.Machine

/-! ## Lists of cells -/

theorem cellLookup_erase_same (a : Nat) (l : List (Nat × Word)) :
    cellLookup (cellErase a l) a = Config.unlistedCell := by
  induction l with
  | nil => rfl
  | cons c rest ih =>
    obtain ⟨b, u⟩ := c
    by_cases h : b = a <;> simp [cellErase, cellLookup, h, ih]

theorem cellLookup_erase_other {a b : Nat} (h : b ≠ a) (l : List (Nat × Word)) :
    cellLookup (cellErase a l) b = cellLookup l b := by
  induction l with
  | nil => rfl
  | cons c rest ih =>
    obtain ⟨d, u⟩ := c
    by_cases hd : d = a
    · subst hd
      simp [cellErase, cellLookup, ih, h.symm]
    · simp [cellErase, cellLookup, hd, ih]

theorem cellLookup_insert_other {a b : Nat} (h : b ≠ a) (v : Word) (l : List (Nat × Word)) :
    cellLookup (cellInsert a v l) b = cellLookup l b := by
  induction l with
  | nil => simp [cellInsert, cellLookup, h.symm]
  | cons c rest ih =>
    obtain ⟨d, u⟩ := c
    by_cases hd : a < d
    · simp [cellInsert, cellLookup, hd, h.symm]
    · simp [cellInsert, cellLookup, hd, ih]

/-- No entry of the list has the address `a`. -/
def absentIn (a : Nat) (l : List (Nat × Word)) : Prop := ∀ c ∈ l, c.1 ≠ a

theorem absentIn_erase (a : Nat) (l : List (Nat × Word)) : absentIn a (cellErase a l) := by
  induction l with
  | nil => simp [absentIn, cellErase]
  | cons c rest ih =>
    obtain ⟨b, u⟩ := c
    by_cases h : b = a
    · simpa [cellErase, h] using ih
    · simp only [cellErase, h, if_false, absentIn, List.mem_cons]
      rintro d (rfl | hd)
      · exact h
      · exact ih d hd

theorem cellLookup_insert_same {a : Nat} (v : Word) {l : List (Nat × Word)} (h : absentIn a l) :
    cellLookup (cellInsert a v l) a = v := by
  induction l with
  | nil => simp [cellInsert, cellLookup]
  | cons c rest ih =>
    obtain ⟨b, u⟩ := c
    have hb : b ≠ a := h (b, u) (by simp)
    by_cases hd : a < b
    · simp [cellInsert, cellLookup, hd]
    · simp only [cellInsert, hd, if_false, cellLookup, hb]
      exact ih (fun d hd' => h d (by simp [hd']))

theorem cellLookup_store_same (a : Nat) (v : Word) (l : List (Nat × Word)) :
    cellLookup (cellStore a v l) a = v := by
  by_cases h : v = Config.unlistedCell
  · simp [cellStore, h, cellLookup_erase_same]
  · simp [cellStore, h, cellLookup_insert_same v (absentIn_erase a l)]

theorem cellLookup_store_other {a b : Nat} (h : b ≠ a) (v : Word) (l : List (Nat × Word)) :
    cellLookup (cellStore a v l) b = cellLookup l b := by
  by_cases hv : v = Config.unlistedCell
  · simp [cellStore, hv, cellLookup_erase_other h]
  · simp [cellStore, hv, cellLookup_insert_other h, cellLookup_erase_other h]

theorem mem_erase {a : Nat} {c : Nat × Word} {l : List (Nat × Word)} (h : c ∈ cellErase a l) : c ∈ l := by
  induction l with
  | nil => simp [cellErase] at h
  | cons d rest ih =>
    obtain ⟨b, u⟩ := d
    by_cases hb : b = a
    · simp only [cellErase, hb, if_true] at h
      exact List.mem_cons_of_mem _ (ih h)
    · simp only [cellErase, hb, if_false, List.mem_cons] at h
      rcases h with rfl | h
      · simp
      · exact List.mem_cons_of_mem _ (ih h)

theorem mem_insert {a : Nat} {v : Word} {c : Nat × Word} {l : List (Nat × Word)} (h : c ∈ cellInsert a v l) :
    c = (a, v) ∨ c ∈ l := by
  induction l with
  | nil => simpa [cellInsert] using h
  | cons d rest ih =>
    obtain ⟨b, u⟩ := d
    by_cases hb : a < b
    · simpa [cellInsert, hb] using h
    · simp only [cellInsert, hb, if_false, List.mem_cons] at h
      rcases h with rfl | h
      · simp
      · rcases ih h with h | h
        · exact .inl h
        · exact .inr (List.mem_cons_of_mem _ h)

theorem cellsRise_erase (a : Nat) {l : List (Nat × Word)} (h : cellsRise l = true) :
    cellsRise (cellErase a l) = true := by
  induction l with
  | nil => simpa [cellErase] using h
  | cons d rest ih =>
    obtain ⟨b, u⟩ := d
    simp only [cellsRise, Bool.and_eq_true, List.all_eq_true, decide_eq_true_eq] at h
    by_cases hb : b = a
    · simpa [cellErase, hb] using ih h.2
    · simp only [cellErase, hb, if_false, cellsRise, Bool.and_eq_true, List.all_eq_true, decide_eq_true_eq]
      exact ⟨fun c hc => h.1 c (mem_erase hc), ih h.2⟩

theorem cellsRise_insert {a : Nat} (v : Word) {l : List (Nat × Word)} (h : cellsRise l = true)
    (ha : absentIn a l) : cellsRise (cellInsert a v l) = true := by
  induction l with
  | nil => simp [cellInsert, cellsRise]
  | cons d rest ih =>
    obtain ⟨b, u⟩ := d
    have hab : b ≠ a := ha (b, u) (by simp)
    have hrest : absentIn a rest := fun c hc => ha c (by simp [hc])
    have h' := h
    simp only [cellsRise, Bool.and_eq_true, List.all_eq_true, decide_eq_true_eq] at h'
    by_cases hb : a < b
    · simp only [cellInsert, hb, if_true]
      simp only [cellsRise, Bool.and_eq_true, List.all_eq_true, decide_eq_true_eq, List.mem_cons]
      refine ⟨?_, h'⟩
      rintro c (rfl | hc)
      · exact hb
      · exact lt_trans hb (h'.1 c hc)
    · simp only [cellInsert, hb, if_false, cellsRise, Bool.and_eq_true, List.all_eq_true, decide_eq_true_eq]
      refine ⟨fun c hc => ?_, ih h'.2 hrest⟩
      rcases mem_insert hc with rfl | hc
      · show b < a
        omega
      · exact h'.1 c hc

/-! ## Memory -/

@[simp] theorem put_len (m : Memory) (a : Int) (v : Word) : (m.put a v).len = m.len := rfl

theorem inRange_iff (m : Memory) (a : Int) : m.inRange a = true ↔ 0 ≤ a ∧ a < m.len := by
  simp [Memory.inRange]

@[simp] theorem put_inRange (m : Memory) (a b : Int) (v : Word) : (m.put a v).inRange b = m.inRange b := rfl

theorem cell_of_inRange {m : Memory} {a : Int} (h : m.inRange a = true) :
    m.cell? a = some (cellLookup m.cells a.toNat) := by
  simp [Memory.cell?, h]

theorem cell_of_not_inRange {m : Memory} {a : Int} (h : m.inRange a = false) : m.cell? a = none := by
  simp [Memory.cell?, h]

theorem put_cell_same {m : Memory} {a : Int} (v : Word) (h : m.inRange a = true) :
    (m.put a v).cell? a = some v := by
  rw [cell_of_inRange (m := m.put a v) h]
  simp [Memory.put, cellLookup_store_same]

theorem put_cell_other {m : Memory} {a b : Int} (v : Word) (ha : m.inRange a = true) (h : b ≠ a) :
    (m.put a v).cell? b = m.cell? b := by
  by_cases hb : m.inRange b = true
  · have hne : b.toNat ≠ a.toNat := by
      rw [inRange_iff] at ha hb
      omega
    rw [cell_of_inRange (m := m.put a v) hb, cell_of_inRange hb]
    simp [Memory.put, cellLookup_store_other hne]
  · rw [Bool.not_eq_true] at hb
    rw [cell_of_not_inRange (m := m.put a v) hb, cell_of_not_inRange hb]

theorem wf_iff (m : Memory) :
    m.wf = true ↔ m.len ≤ Config.maxLen ∧ cellsRise m.cells = true ∧
      ∀ c ∈ m.cells, c.1 < m.len ∧ c.2 ≠ Config.unlistedCell := by
  simp [Memory.wf, and_assoc]

/-- A write to a valid address keeps the canonical form. -/
theorem put_wf {m : Memory} {a : Int} (v : Word) (hm : m.wf = true) (ha : m.inRange a = true) :
    (m.put a v).wf = true := by
  rw [wf_iff] at hm ⊢
  obtain ⟨hlen, hrise, hall⟩ := hm
  rw [inRange_iff] at ha
  have herase := cellsRise_erase a.toNat hrise
  have hmem : ∀ c ∈ cellErase a.toNat m.cells, c.1 < m.len ∧ c.2 ≠ Config.unlistedCell :=
    fun c hc => hall c (mem_erase hc)
  by_cases hv : v = Config.unlistedCell
  · simp only [Memory.put, cellStore, hv, if_true]
    exact ⟨hlen, herase, hmem⟩
  · simp only [Memory.put, cellStore, hv, if_false]
    refine ⟨hlen, cellsRise_insert v herase (absentIn_erase _ _), fun c hc => ?_⟩
    rcases mem_insert hc with rfl | hc
    · exact ⟨by show a.toNat < m.len; omega, hv⟩
    · exact hmem c hc

theorem mem_cellsOfImage {image : List Word} {a : Nat} {c : Nat × Word} (h : c ∈ cellsOfImage a image) :
    a ≤ c.1 ∧ c.1 < a + image.length ∧ c.2 ≠ Config.unlistedCell := by
  induction image generalizing a with
  | nil => simp [cellsOfImage] at h
  | cons v rest ih =>
    by_cases hv : v = Config.unlistedCell
    · simp only [cellsOfImage, hv, if_true] at h
      have := ih h
      simp only [List.length_cons]
      exact ⟨by omega, by omega, this.2.2⟩
    · simp only [cellsOfImage, hv, if_false, List.mem_cons] at h
      simp only [List.length_cons]
      rcases h with rfl | h
      · exact ⟨le_refl a, by show a < _; omega, hv⟩
      · have := ih h
        exact ⟨by omega, by omega, this.2.2⟩

theorem cellsRise_cellsOfImage (image : List Word) (a : Nat) : cellsRise (cellsOfImage a image) = true := by
  induction image generalizing a with
  | nil => rfl
  | cons v rest ih =>
    by_cases hv : v = Config.unlistedCell
    · simpa [cellsOfImage, hv] using ih (a + 1)
    · simp only [cellsOfImage, hv, if_false, cellsRise, Bool.and_eq_true, List.all_eq_true, decide_eq_true_eq]
      exact ⟨fun c hc => by have := mem_cellsOfImage hc; omega, ih (a + 1)⟩

/-- A copied image of a legal length is in canonical form. -/
theorem ofImage_wf {image : List Word} (h : image.length ≤ Config.maxLen) : (Memory.ofImage image).wf = true := by
  rw [wf_iff]
  refine ⟨h, cellsRise_cellsOfImage image 0, fun c hc => ?_⟩
  have := mem_cellsOfImage hc
  exact ⟨by show c.1 < image.length; omega, this.2.2⟩

/-- Reset's memory is in canonical form. -/
theorem reset_mem_wf : State.reset.mem.wf = true := by decide

@[simp] theorem putAll_len (m : Memory) (a : Int) (cells : List Word) : (m.putAll a cells).len = m.len := by
  induction cells generalizing m a with
  | nil => rfl
  | cons v rest ih => simp [Memory.putAll, ih]

/-- Cells put at valid addresses keep the canonical form. -/
theorem putAll_wf {m : Memory} {a : Int} {cells : List Word} (hm : m.wf = true) (h0 : 0 ≤ a)
    (h : a + cells.length ≤ m.len) : (m.putAll a cells).wf = true := by
  induction cells generalizing m a with
  | nil => exact hm
  | cons v rest ih =>
    simp only [List.length_cons, Nat.cast_add, Nat.cast_one] at h
    refine ih (put_wf v hm ((inRange_iff m a).2 ⟨h0, by omega⟩)) (by omega) ?_
    simp only [put_len]
    omega

/-- A longer memory of the same cells stays in canonical form while its length is legal. -/
theorem extend_wf {m : Memory} {len : Nat} (hm : m.wf = true) (h : m.len ≤ len) (hlen : len ≤ Config.maxLen) :
    Memory.wf ⟨len, m.cells⟩ = true := by
  rw [wf_iff] at hm ⊢
  exact ⟨hlen, hm.2.1, fun c hc => ⟨lt_of_lt_of_le (hm.2.2 c hc).1 h, (hm.2.2 c hc).2⟩⟩

theorem read_ok_iff {m : Memory} {a : Int} {v : Word} : m.read a = .ok v ↔ m.cell? a = some v := by
  unfold Memory.read
  cases m.cell? a <;> simp

theorem read_error_iff {m : Memory} {a : Int} {c : Cause} :
    m.read a = .error c ↔ m.inRange a = false ∧ c = .outOfBounds := by
  unfold Memory.read Memory.cell?
  cases m.inRange a <;> simp [eq_comm]

/-- Everything a checked write can do. -/
theorem write_cases (m : Memory) (a : Int) (v : Word) :
    (m.inRange a = true ∧ m.write a v = .ok (m.put a v)) ∨
      (m.inRange a = false ∧ m.write a v = .error .outOfBounds) := by
  unfold Memory.write
  cases m.inRange a <;> simp

end Sys2Proof.Machine
end

