-- ==== Sys2Proof/Laws/State.lean ====
section
/-! SUPPORT. One lemma per field per update of the state, so that no later proof unfolds an update. -/

namespace Sys2Proof.Machine

@[simp] theorem setPc_mem (t : Word) (s : State) : (s.setPc t).mem = s.mem := rfl
@[simp] theorem setPc_pc (t : Word) (s : State) : (s.setPc t).pc = t := rfl
@[simp] theorem setPc_status (t : Word) (s : State) : (s.setPc t).status = s.status := rfl
@[simp] theorem setPc_cause (t : Word) (s : State) : (s.setPc t).cause = s.cause := rfl
@[simp] theorem setPc_input (t : Word) (s : State) : (s.setPc t).input = s.input := rfl
@[simp] theorem setPc_output (t : Word) (s : State) : (s.setPc t).output = s.output := rfl

@[simp] theorem advance_mem (op : Op) (s : State) : (s.advance op).mem = s.mem := rfl
@[simp] theorem advance_pc (op : Op) (s : State) : (s.advance op).pc = s.pc + BitVec.ofNat 64 (op.argc + 1) := rfl
@[simp] theorem advance_status (op : Op) (s : State) : (s.advance op).status = s.status := rfl
@[simp] theorem advance_cause (op : Op) (s : State) : (s.advance op).cause = s.cause := rfl
@[simp] theorem advance_input (op : Op) (s : State) : (s.advance op).input = s.input := rfl
@[simp] theorem advance_output (op : Op) (s : State) : (s.advance op).output = s.output := rfl

@[simp] theorem setMem_mem (m : Memory) (s : State) : (s.setMem m).mem = m := rfl
@[simp] theorem setMem_pc (m : Memory) (s : State) : (s.setMem m).pc = s.pc := rfl
@[simp] theorem setMem_status (m : Memory) (s : State) : (s.setMem m).status = s.status := rfl
@[simp] theorem setMem_cause (m : Memory) (s : State) : (s.setMem m).cause = s.cause := rfl
@[simp] theorem setMem_input (m : Memory) (s : State) : (s.setMem m).input = s.input := rfl
@[simp] theorem setMem_output (m : Memory) (s : State) : (s.setMem m).output = s.output := rfl

@[simp] theorem setStatus_mem (st : Status) (s : State) : (s.setStatus st).mem = s.mem := rfl
@[simp] theorem setStatus_pc (st : Status) (s : State) : (s.setStatus st).pc = s.pc := rfl
@[simp] theorem setStatus_status (st : Status) (s : State) : (s.setStatus st).status = st := rfl
@[simp] theorem setStatus_cause (st : Status) (s : State) : (s.setStatus st).cause = s.cause := rfl
@[simp] theorem setStatus_input (st : Status) (s : State) : (s.setStatus st).input = s.input := rfl
@[simp] theorem setStatus_output (st : Status) (s : State) : (s.setStatus st).output = s.output := rfl

@[simp] theorem setInput_mem (ch : Channel) (s : State) : (s.setInput ch).mem = s.mem := rfl
@[simp] theorem setInput_pc (ch : Channel) (s : State) : (s.setInput ch).pc = s.pc := rfl
@[simp] theorem setInput_status (ch : Channel) (s : State) : (s.setInput ch).status = s.status := rfl
@[simp] theorem setInput_cause (ch : Channel) (s : State) : (s.setInput ch).cause = s.cause := rfl
@[simp] theorem setInput_input (ch : Channel) (s : State) : (s.setInput ch).input = some ch := rfl
@[simp] theorem setInput_output (ch : Channel) (s : State) : (s.setInput ch).output = s.output := rfl

@[simp] theorem setOutput_mem (ch : Channel) (s : State) : (s.setOutput ch).mem = s.mem := rfl
@[simp] theorem setOutput_pc (ch : Channel) (s : State) : (s.setOutput ch).pc = s.pc := rfl
@[simp] theorem setOutput_status (ch : Channel) (s : State) : (s.setOutput ch).status = s.status := rfl
@[simp] theorem setOutput_cause (ch : Channel) (s : State) : (s.setOutput ch).cause = s.cause := rfl
@[simp] theorem setOutput_input (ch : Channel) (s : State) : (s.setOutput ch).input = s.input := rfl
@[simp] theorem setOutput_output (ch : Channel) (s : State) : (s.setOutput ch).output = some ch := rfl

@[simp] theorem takeFault_mem (c : Cause) (s : State) : (s.takeFault c).mem = s.mem := rfl
@[simp] theorem takeFault_pc (c : Cause) (s : State) : (s.takeFault c).pc = s.pc := rfl
@[simp] theorem takeFault_status (c : Cause) (s : State) : (s.takeFault c).status = .faulted := rfl
@[simp] theorem takeFault_cause (c : Cause) (s : State) : (s.takeFault c).cause = some c := rfl
@[simp] theorem takeFault_input (c : Cause) (s : State) : (s.takeFault c).input = s.input := rfl
@[simp] theorem takeFault_output (c : Cause) (s : State) : (s.takeFault c).output = s.output := rfl

end Sys2Proof.Machine
end

