-- ==== Sys2Proof/Laws/Ops.lean ====
section
/-! SUPPORT. One lemma per shared operation that says everything it can do; later proofs cite these and do not unfold
the operations. -/

namespace Sys2Proof.Machine

/-! ## Sequencing of checks -/

@[simp] theorem bind_ok {α β : Type} (a : α) (f : α → Except Cause β) : (Except.ok a >>= f) = f a := rfl
@[simp] theorem bind_error {α β : Type} (c : Cause) (f : α → Except Cause β) :
    ((Except.error c : Except Cause α) >>= f) = .error c := rfl
@[simp] theorem pure_ok {α : Type} (a : α) : (pure a : Except Cause α) = .ok a := rfl

/-! ## The end of a cycle -/

@[simp] theorem settle_ok (s t : State) : s.settle (.ok t) = .next t := rfl
@[simp] theorem settle_error (s : State) (c : Cause) : s.settle (.error c) = .next (s.takeFault c) := rfl

/-- A settled cycle is a next state: the computed one, or the fault entry on the state it began with. -/
theorem settle_next {s t : State} {r : Except Cause State} (h : s.settle r = .next t) :
    r = .ok t ∨ ∃ c, r = .error c ∧ t = s.takeFault c := by
  cases r with
  | ok u =>
    simp only [settle_ok, Host.Outcome.next.injEq] at h
    exact .inl (by rw [h])
  | error c =>
    simp only [settle_error, Host.Outcome.next.injEq] at h
    exact .inr ⟨c, rfl, h.symm⟩

/-! ## Stores and operands -/

/-- Everything a store can do: it replaces memory by the written one, or raises `OutOfBounds`. -/
theorem store_cases (s : State) (a v : Word) :
    (s.mem.inRange a.toInt = true ∧ s.store a v = .ok (s.setMem (s.mem.put a.toInt v))) ∨
      (s.mem.inRange a.toInt = false ∧ s.store a v = .error .outOfBounds) := by
  unfold State.store
  rcases write_cases s.mem a.toInt v with ⟨h, hw⟩ | ⟨h, hw⟩
  · exact .inl ⟨h, by rw [hw]⟩
  · exact .inr ⟨h, by rw [hw]⟩

/-- Everything the resolution of a value argument can do. -/
theorem val_cases (s : State) (arg : Arg) :
    (arg.mode = .immediate ∧ s.val arg = .ok arg.raw) ∨
      (arg.mode = .position ∧ ∃ v, s.mem.cell? arg.raw.toInt = some v ∧ s.val arg = .ok v) ∨
      (arg.mode = .position ∧ s.mem.inRange arg.raw.toInt = false ∧ s.val arg = .error .outOfBounds) := by
  obtain ⟨raw, mode⟩ := arg
  cases mode with
  | immediate => exact .inl ⟨rfl, rfl⟩
  | position =>
    right
    cases h : s.mem.inRange raw.toInt with
    | true =>
      exact .inl ⟨rfl, _, cell_of_inRange h, by simp [State.val, Memory.read, cell_of_inRange h]⟩
    | false => exact .inr ⟨rfl, rfl, by simp [State.val, Memory.read, cell_of_not_inRange h]⟩

/-- A value argument raises nothing but `OutOfBounds`. -/
theorem val_error {s : State} {arg : Arg} {c : Cause} (h : s.val arg = .error c) : c = .outOfBounds := by
  rcases val_cases s arg with ⟨_, hv⟩ | ⟨_, v, _, hv⟩ | ⟨_, _, hv⟩ <;> rw [hv] at h
  · cases h
  · cases h
  · cases h; rfl

/-- The range test of a result: the exact integer, or `ArithmeticOverflow`. -/
theorem checkedResult_cases (v : Int) :
    (-2 ^ 63 ≤ v ∧ v ≤ 2 ^ 63 - 1 ∧ ∃ w, checkedResult v = .ok w ∧ w.toInt = v) ∨
      ((v < -2 ^ 63 ∨ 2 ^ 63 - 1 < v) ∧ checkedResult v = .error .arithmeticOverflow) := by
  by_cases h : -2 ^ 63 ≤ v ∧ v ≤ 2 ^ 63 - 1
  · refine .inl ⟨h.1, h.2, wordOfInt v, ?_, ?_⟩
    · have : fitsWord v = true := by
        simp only [fitsWord, Bool.and_eq_true, decide_eq_true_eq]
        exact h
      simp [checkedResult, this]
    · rw [wordOfInt, BitVec.toInt_ofInt, Int.bmod_eq_of_le] <;> omega
  · refine .inr ⟨by omega, ?_⟩
    have : fitsWord v = false := by
      simp only [fitsWord, Bool.and_eq_false_iff, decide_eq_false_iff_not]
      omega
    simp [checkedResult, this]

theorem truthWord_toInt (b : Bool) : (truthWord b).toInt = if b then 1 else 0 := by cases b <;> rfl

/-! ## Channels -/

/-- Everything `ChanRead` can do. -/
theorem channelRead_cases (ch : Channel) :
    (ch.canRead = true ∧ ∃ v, ch.items[ch.cur]? = some v ∧ ch.read = .ok (v, ⟨ch.items, ch.cur + 1⟩)) ∨
      (ch.canRead = false ∧ ch.read = .error .exhausted) := by
  by_cases h : ch.cur < ch.items.length
  · exact .inl ⟨by simp [Channel.canRead, h], ch.items[ch.cur], by simp [h], by simp [Channel.read, h]⟩
  · refine .inr ⟨by simp [Channel.canRead, h], ?_⟩
    have : ch.items[ch.cur]? = none := by simp; omega
    simp [Channel.read, this]

/-- Everything the engine's own reading of a channel can do. -/
theorem channelNext_cases (ch : Channel) :
    (ch.canRead = true ∧ ∃ v, ch.items[ch.cur]? = some v ∧ ch.next = .ok (v, ⟨ch.items, ch.cur + 1⟩)) ∨
      (ch.canRead = false ∧ ch.next = .error .inputExhausted) := by
  rcases channelRead_cases ch with ⟨h, v, hv, hr⟩ | ⟨h, _⟩
  · exact .inl ⟨h, v, hv, by simp [Channel.next, h, hr]⟩
  · exact .inr ⟨h, by simp [Channel.next, h]⟩

theorem write_wf {ch : Channel} (v : Word) (h : ch.wf = true) : (ch.write v).wf = true := by
  simp only [Channel.wf, Channel.write, List.length_append, List.length_singleton, decide_eq_true_eq] at h ⊢
  omega

/-! ## The shared cycles -/

/-- Everything the three-operand cycle can do, in the order of its tests. -/
theorem threeOperand_cases (op : Op) (f : Word → Word → Except Cause Word) (a0 a1 a2 : Arg) (s : State) :
    (∃ c, s.val a0 = .error c ∧ threeOperand op f a0 a1 a2 s = .next (s.takeFault c)) ∨
    (∃ x c, s.val a0 = .ok x ∧ s.val a1 = .error c ∧ threeOperand op f a0 a1 a2 s = .next (s.takeFault c)) ∨
    (∃ x y c, s.val a0 = .ok x ∧ s.val a1 = .ok y ∧ f x y = .error c ∧
      threeOperand op f a0 a1 a2 s = .next (s.takeFault c)) ∨
    (∃ x y r, s.val a0 = .ok x ∧ s.val a1 = .ok y ∧ f x y = .ok r ∧ s.mem.inRange (dst a2).toInt = false ∧
      threeOperand op f a0 a1 a2 s = .next (s.takeFault .outOfBounds)) ∨
    (∃ x y r, s.val a0 = .ok x ∧ s.val a1 = .ok y ∧ f x y = .ok r ∧ s.mem.inRange (dst a2).toInt = true ∧
      threeOperand op f a0 a1 a2 s = .next ((s.setMem (s.mem.put (dst a2).toInt r)).advance op)) := by
  unfold threeOperand
  cases h0 : s.val a0 with
  | error c => exact .inl ⟨c, rfl, by simp⟩
  | ok x =>
    cases h1 : s.val a1 with
    | error c => exact .inr (.inl ⟨x, c, rfl, rfl, by simp⟩)
    | ok y =>
      cases hf : f x y with
      | error c => exact .inr (.inr (.inl ⟨x, y, c, rfl, rfl, hf, by simp [hf]⟩))
      | ok r =>
        rcases store_cases s (dst a2) r with ⟨hr, hs⟩ | ⟨hr, hs⟩
        · exact .inr (.inr (.inr (.inr ⟨x, y, r, rfl, rfl, hf, hr, by simp [hf, hs]⟩)))
        · exact .inr (.inr (.inr (.inl ⟨x, y, r, rfl, rfl, hf, hr, by simp [hf, hs]⟩)))

/-- Everything a conditional jump can do, in the order of its tests. -/
theorem jumpWhen_cases (op : Op) (taken : Word → Bool) (a0 a1 : Arg) (s : State) :
    (∃ c, s.val a0 = .error c ∧ jumpWhen op taken a0 a1 s = .next (s.takeFault c)) ∨
    (∃ x, s.val a0 = .ok x ∧ taken x = false ∧ jumpWhen op taken a0 a1 s = .next (s.advance op)) ∨
    (∃ x c, s.val a0 = .ok x ∧ taken x = true ∧ s.val a1 = .error c ∧
      jumpWhen op taken a0 a1 s = .next (s.takeFault c)) ∨
    (∃ x t, s.val a0 = .ok x ∧ taken x = true ∧ s.val a1 = .ok t ∧
      jumpWhen op taken a0 a1 s = .next (s.setPc t)) := by
  unfold jumpWhen
  cases h0 : s.val a0 with
  | error c => exact .inl ⟨c, rfl, by simp⟩
  | ok x =>
    cases ht : taken x with
    | false => exact .inr (.inl ⟨x, rfl, ht, by simp [ht]⟩)
    | true =>
      cases h1 : s.val a1 with
      | error c => exact .inr (.inr (.inl ⟨x, c, rfl, ht, rfl, by simp [ht]⟩))
      | ok t => exact .inr (.inr (.inr ⟨x, t, rfl, ht, rfl, by simp [ht]⟩))

/-- Everything Read can do, in the order of its tests. -/
theorem execRead_cases (a0 : Arg) (s : State) :
    (s.input = none ∧ execRead a0 s = .next (s.takeFault .noInputChannel)) ∨
    (∃ ch, s.input = some ch ∧ ch.canRead = false ∧ execRead a0 s = .next (s.takeFault .inputExhausted)) ∨
    (∃ ch, s.input = some ch ∧ ch.canRead = true ∧ s.mem.inRange (dst a0).toInt = false ∧
      execRead a0 s = .next (s.takeFault .outOfBounds)) ∨
    (∃ ch v, s.input = some ch ∧ ch.items[ch.cur]? = some v ∧ s.mem.inRange (dst a0).toInt = true ∧
      execRead a0 s =
        .next (((s.setMem (s.mem.put (dst a0).toInt v)).setInput ⟨ch.items, ch.cur + 1⟩).advance .read)) := by
  unfold execRead State.boundInput
  cases hi : s.input with
  | none => exact .inl ⟨rfl, by simp⟩
  | some ch =>
    rcases channelNext_cases ch with ⟨hc, v, hv, hn⟩ | ⟨hc, hn⟩
    · rcases store_cases s (dst a0) v with ⟨hr, hs⟩ | ⟨hr, hs⟩
      · exact .inr (.inr (.inr ⟨ch, v, rfl, hv, hr, by simp [hn, hs]⟩))
      · exact .inr (.inr (.inl ⟨ch, rfl, hc, hr, by simp [hn, hs]⟩))
    · exact .inr (.inl ⟨ch, rfl, hc, by simp [hn]⟩)

/-- Everything Write can do, in the order of its tests. -/
theorem execWrite_cases (a0 : Arg) (s : State) :
    (∃ c, s.val a0 = .error c ∧ execWrite a0 s = .next (s.takeFault c)) ∨
    (∃ v, s.val a0 = .ok v ∧ s.output = none ∧ execWrite a0 s = .next (s.takeFault .noOutputChannel)) ∨
    (∃ v ch, s.val a0 = .ok v ∧ s.output = some ch ∧
      execWrite a0 s = .next ((s.setOutput (ch.write v)).advance .write)) := by
  unfold execWrite State.boundOutput
  cases h0 : s.val a0 with
  | error c => exact .inl ⟨c, rfl, by simp⟩
  | ok v =>
    cases ho : s.output with
    | none => exact .inr (.inl ⟨v, rfl, rfl, by simp⟩)
    | some ch => exact .inr (.inr ⟨v, ch, rfl, rfl, by simp⟩)

theorem execHalt_eq (s : State) : execHalt s = .next (s.setStatus .halted) := rfl

/-! ## Reset -/

/-- Reset is construction (R130, R131), of the empty image (log 3). -/
theorem reset_eq_construct : State.reset = construct [] := rfl

/-- Everything a step can do: a cycle in RUNNING that decodes, a cycle that does not, or no cycle. -/
theorem step_next {s t : State} (h : step s = .next t) :
    s.status = .running ∧
      ((∃ c, decode s.fetch = .error c ∧ t = s.takeFault c) ∨ ∃ i, decode s.fetch = .ok i ∧ exec i s = .next t) := by
  unfold step at h
  cases hs : s.status <;> simp only [hs] at h <;> try cases h
  refine ⟨rfl, ?_⟩
  unfold cycle at h
  cases hd : decode s.fetch with
  | error c =>
    simp only [hd, Host.Outcome.next.injEq] at h
    exact .inl ⟨c, rfl, h.symm⟩
  | ok i =>
    simp only [hd] at h
    exact .inr ⟨i, rfl, h⟩

end Sys2Proof.Machine
end

