-- ==== Sys2Proof/Laws/PerInstr.lean ====
section
/-! SUPPORT. Facts about every instruction as syntax, one lemma per constructor. -/

namespace Sys2Proof

/-- An instruction has exactly its operation's arguments, and is what its own term stands for (R51, R65). -/
def Laws.Arity.Statement (i : Instr) : Prop :=
  i.args.length = i.op.argc ∧ Term.toInstr ⟨i.op, i.args⟩ = some i

theorem Laws.Arity.add (a0 a1 a2 : Arg) : Laws.Arity.Statement (.add a0 a1 a2) := ⟨rfl, rfl⟩
theorem Laws.Arity.multiply (a0 a1 a2 : Arg) : Laws.Arity.Statement (.multiply a0 a1 a2) := ⟨rfl, rfl⟩
theorem Laws.Arity.read (a0 : Arg) : Laws.Arity.Statement (.read a0) := ⟨rfl, rfl⟩
theorem Laws.Arity.write (a0 : Arg) : Laws.Arity.Statement (.write a0) := ⟨rfl, rfl⟩
theorem Laws.Arity.jumpIfTrue (a0 a1 : Arg) : Laws.Arity.Statement (.jumpIfTrue a0 a1) := ⟨rfl, rfl⟩
theorem Laws.Arity.jumpIfFalse (a0 a1 : Arg) : Laws.Arity.Statement (.jumpIfFalse a0 a1) := ⟨rfl, rfl⟩
theorem Laws.Arity.lessThan (a0 a1 a2 : Arg) : Laws.Arity.Statement (.lessThan a0 a1 a2) := ⟨rfl, rfl⟩
theorem Laws.Arity.equals (a0 a1 a2 : Arg) : Laws.Arity.Statement (.equals a0 a1 a2) := ⟨rfl, rfl⟩
theorem Laws.Arity.halt : Laws.Arity.Statement .halt := ⟨rfl, rfl⟩

/-- The encoded word is nonnegative, its two low digits are the opcode, and the digit above them for each argument is
that argument's mode (R46, R52, R66). -/
def Laws.WordFields.Statement (i : Instr) : Prop :=
  0 ≤ (encodeWord i).toInt ∧ (encodeWord i).toNat % 100 = i.op.code ∧
    ∀ k a, i.args[k]? = some a → digit (encodeWord i).toNat (k + 2) = a.mode.digit

/-- The fields of a word of three mode digits over an opcode below 100. -/
theorem wordFields_of_modes {code : Nat} (hc : code < 100) (m0 m1 m2 : Mode) :
    let w : Word := BitVec.ofNat 64 (code + 100 * (m0.digit + 10 * (m1.digit + 10 * m2.digit)))
    0 ≤ w.toInt ∧ w.toNat % 100 = code ∧ digit w.toNat 2 = m0.digit ∧ digit w.toNat 3 = m1.digit ∧
      digit w.toNat 4 = m2.digit := by
  have bound (m : Mode) : m.digit ≤ 1 := by cases m <;> decide
  have h0 := bound m0
  have h1 := bound m1
  have h2 := bound m2
  have hn : (BitVec.ofNat 64 (code + 100 * (m0.digit + 10 * (m1.digit + 10 * m2.digit)))).toNat =
      code + 100 * (m0.digit + 10 * (m1.digit + 10 * m2.digit)) := by
    rw [BitVec.toNat_ofNat]
    omega
  simp only
  refine ⟨?_, ?_, ?_, ?_, ?_⟩
  · rw [BitVec.toInt_eq_toNat_cond, hn]
    split <;> omega
  all_goals rw [hn]
  · omega
  all_goals
    simp only [digit]
    omega

theorem Laws.WordFields.of_three {i : Instr} {a0 a1 a2 : Arg} (hargs : i.args = [a0, a1, a2])
    (hc : i.op.code < 100) : Laws.WordFields.Statement i := by
  have h := wordFields_of_modes hc a0.mode a1.mode a2.mode
  simp only at h
  unfold Laws.WordFields.Statement encodeWord
  simp only [hargs, modesNat, Nat.mul_zero, Nat.add_zero]
  refine ⟨h.1, h.2.1, fun k a hk => ?_⟩
  rcases k with _ | _ | _ | k <;> simp at hk <;> subst hk
  · exact h.2.2.1
  · exact h.2.2.2.1
  · exact h.2.2.2.2

theorem Laws.WordFields.of_two {i : Instr} {a0 a1 : Arg} (hargs : i.args = [a0, a1]) (hc : i.op.code < 100) :
    Laws.WordFields.Statement i := by
  have h := wordFields_of_modes hc a0.mode a1.mode .position
  simp only [show Mode.position.digit = 0 from rfl, Nat.mul_zero, Nat.add_zero] at h
  unfold Laws.WordFields.Statement encodeWord
  simp only [hargs, modesNat, Nat.mul_zero, Nat.add_zero]
  refine ⟨h.1, h.2.1, fun k a hk => ?_⟩
  rcases k with _ | _ | k <;> simp at hk <;> subst hk
  · exact h.2.2.1
  · exact h.2.2.2.1

theorem Laws.WordFields.of_one {i : Instr} {a0 : Arg} (hargs : i.args = [a0]) (hc : i.op.code < 100) :
    Laws.WordFields.Statement i := by
  have h := wordFields_of_modes hc a0.mode .position .position
  simp only [show Mode.position.digit = 0 from rfl, Nat.mul_zero, Nat.add_zero] at h
  unfold Laws.WordFields.Statement encodeWord
  simp only [hargs, modesNat, Nat.mul_zero, Nat.add_zero]
  refine ⟨h.1, h.2.1, fun k a hk => ?_⟩
  rcases k with _ | k <;> simp at hk
  subst hk
  exact h.2.2.1

theorem Laws.WordFields.add (a0 a1 a2 : Arg) : Laws.WordFields.Statement (.add a0 a1 a2) :=
  Laws.WordFields.of_three rfl (show _ < 100 by simp [Instr.op, Op.code])
theorem Laws.WordFields.multiply (a0 a1 a2 : Arg) : Laws.WordFields.Statement (.multiply a0 a1 a2) :=
  Laws.WordFields.of_three rfl (show _ < 100 by simp [Instr.op, Op.code])
theorem Laws.WordFields.read (a0 : Arg) : Laws.WordFields.Statement (.read a0) :=
  Laws.WordFields.of_one rfl (show _ < 100 by simp [Instr.op, Op.code])
theorem Laws.WordFields.write (a0 : Arg) : Laws.WordFields.Statement (.write a0) :=
  Laws.WordFields.of_one rfl (show _ < 100 by simp [Instr.op, Op.code])
theorem Laws.WordFields.jumpIfTrue (a0 a1 : Arg) : Laws.WordFields.Statement (.jumpIfTrue a0 a1) :=
  Laws.WordFields.of_two rfl (show _ < 100 by simp [Instr.op, Op.code])
theorem Laws.WordFields.jumpIfFalse (a0 a1 : Arg) : Laws.WordFields.Statement (.jumpIfFalse a0 a1) :=
  Laws.WordFields.of_two rfl (show _ < 100 by simp [Instr.op, Op.code])
theorem Laws.WordFields.lessThan (a0 a1 a2 : Arg) : Laws.WordFields.Statement (.lessThan a0 a1 a2) :=
  Laws.WordFields.of_three rfl (show _ < 100 by simp [Instr.op, Op.code])
theorem Laws.WordFields.equals (a0 a1 a2 : Arg) : Laws.WordFields.Statement (.equals a0 a1 a2) :=
  Laws.WordFields.of_three rfl (show _ < 100 by simp [Instr.op, Op.code])
theorem Laws.WordFields.halt : Laws.WordFields.Statement .halt := by
  refine ⟨by decide, by decide, fun k a hk => ?_⟩
  simp [Instr.args] at hk

end Sys2Proof
end

