-- ==== Sys2Proof/Tests/Slice0.lean ====
section
/-! SUPPORT. Small tests whose expected results are the spec's (spec/95_test_vectors.md, the vector named in each), and a
witness for every statement that has hypotheses. -/

namespace Sys2Proof.Tests

open Sys2Proof.Machine

/-! ## Helpers -/

/-- Words of integers. -/
def ws (vs : List Int) : List Word := vs.map wordOfInt

/-- A channel. -/
def chan (items : List Int) (cur : Nat) : Channel := ⟨ws items, cur⟩

/-- A running machine with no channel. -/
def runs (cells : List Int) (pc : Int) : State :=
  { construct (ws cells) with pc := wordOfInt pc, status := .running }

/-- With an input channel. -/
def withIn (ch : Channel) (s : State) : State := { s with input := some ch }

/-- With an output channel. -/
def withOut (ch : Channel) (s : State) : State := { s with output := some ch }

/-- Halted. -/
def halts (s : State) : State := { s with status := .halted }

/-- Faulted. -/
def faults (c : Cause) (s : State) : State := { s with status := .faulted, cause := some c }

/-- The next state, if there is one. -/
def after : Host.Outcome State Fault Refusal → Option State
  | .next t => some t
  | .fault _ => none
  | .refused _ => none

/-- What a word with the cells 11, 12, 13 after it decodes to. -/
def decoded (w : Int) : Except Cause Instr := decodeCells (ws [w, 11, 12, 13])

def P (v : Int) : Arg := ⟨wordOfInt v, .position⟩
def I (v : Int) : Arg := ⟨wordOfInt v, .immediate⟩
def MAX : Int := 9223372036854775807
def MIN : Int := -9223372036854775808

/-! ## Well-formedness: each check refuses an ill-formed term -/

/-- Add has three arguments, Halt none (R51). -/
theorem test_arity_refused :
    Term.wellFormed ⟨.add, [P 1, P 2]⟩ = false ∧ Term.wellFormed ⟨.halt, [P 1]⟩ = false ∧
      Term.wellFormed ⟨.read, []⟩ = false ∧ Term.wellFormed ⟨.jumpIfTrue, [P 1, P 2]⟩ = true := by decide

theorem test_arity_no_instruction :
    Term.toInstr ⟨.equals, [P 1, P 2, P 3, P 4]⟩ = none ∧ Term.toInstr ⟨.write, [I 5]⟩ = some (.write (I 5)) := by decide

/-- A destination written with digit 1 is not canonical (R66). -/
theorem test_canonical_refused :
    Instr.canonical (.add (P 1) (P 2) (I 3)) = false ∧ Instr.canonical (.read (I 3)) = false ∧
      Instr.canonical (.write (I 3)) = true := by decide

/-- `LEN` is at most `2^63 - 1` (R6). -/
theorem test_image_length_refused : imageLengthOk (2 ^ 63) = false ∧ imageLengthOk (2 ^ 63 - 1) = true := by decide

/-- DB4, DB5, DB7: an instruction lies wholly inside memory. -/
theorem test_placement_refused :
    Instr.fitsAt (.jumpIfTrue (P 0) (P 0)) 0 2 = false ∧ Instr.fitsAt .halt 2 3 = true ∧ Instr.fitsAt .halt (-1) 3 = false ∧
      Instr.fitsAt (.add (P 0) (P 0) (P 2)) 0 4 = true := by decide

/-! ## Decoding -/

/-- DV1 to DV9. -/
theorem test_decode_add :
    decoded 1 = .ok (.add (P 11) (P 12) (P 13)) ∧ decoded 101 = .ok (.add (I 11) (P 12) (P 13)) ∧
      decoded 1001 = .ok (.add (P 11) (I 12) (P 13)) ∧ decoded 1101 = .ok (.add (I 11) (I 12) (P 13)) ∧
      decoded 10001 = .ok (.add (P 11) (P 12) (I 13)) ∧ decoded 200001 = .ok (.add (P 11) (P 12) (P 13)) ∧
      decoded 1100000000000000001 = .ok (.add (P 11) (P 12) (P 13)) := by decide

/-- DV10, DV11. -/
theorem test_decode_multiply :
    decoded 2 = .ok (.multiply (P 11) (P 12) (P 13)) ∧ decoded 1002 = .ok (.multiply (P 11) (I 12) (P 13)) := by decide

/-- DV12 to DV16. -/
theorem test_decode_read :
    decoded 3 = .ok (.read (P 11)) ∧ decoded 103 = .ok (.read (I 11)) ∧ decoded 1003 = .ok (.read (P 11)) ∧
      decoded 2103 = .ok (.read (I 11)) ∧ decoded 203 = .error .invalidMode := by decide

/-- DV17 to DV20. -/
theorem test_decode_write :
    decoded 4 = .ok (.write (P 11)) ∧ decoded 104 = .ok (.write (I 11)) ∧ decoded 1004 = .ok (.write (P 11)) ∧
      decoded 204 = .error .invalidMode := by decide

/-- DV21 to DV25. -/
theorem test_decode_jumps :
    decoded 5 = .ok (.jumpIfTrue (P 11) (P 12)) ∧ decoded 1105 = .ok (.jumpIfTrue (I 11) (I 12)) ∧
      decoded 2005 = .error .invalidMode ∧ decoded 6 = .ok (.jumpIfFalse (P 11) (P 12)) ∧
      decoded 1106 = .ok (.jumpIfFalse (I 11) (I 12)) := by decide

/-- DV26 to DV31. -/
theorem test_decode_comparisons :
    decoded 7 = .ok (.lessThan (P 11) (P 12) (P 13)) ∧ decoded 107 = .ok (.lessThan (I 11) (P 12) (P 13)) ∧
      decoded 1107 = .ok (.lessThan (I 11) (I 12) (P 13)) ∧ decoded 8 = .ok (.equals (P 11) (P 12) (P 13)) ∧
      decoded 1008 = .ok (.equals (P 11) (I 12) (P 13)) ∧ decoded 108 = .ok (.equals (I 11) (P 12) (P 13)) := by decide

/-- DV32 to DV38. -/
theorem test_decode_halt :
    decoded 99 = .ok .halt ∧ decoded 199 = .ok .halt ∧ decoded 20099 = .ok .halt ∧
      decoded 9223372036854775799 = .ok .halt := by decide

/-- DV39 to DV44 and DV49 to DV52. -/
theorem test_decode_invalid_opcode :
    ∀ w ∈ [0, 9, 10, 98, 100, 109, -1, -99, -1101, MIN], decoded w = .error .invalidOpcode := by decide

/-- DV45 to DV48 and DV53. -/
theorem test_decode_invalid_mode : ∀ w ∈ [201, 2001, 20001, 1203, MAX], decoded w = .error .invalidMode := by decide

/-- DB3, DB4, DB8, DB10 to DB14: the decoder at the end of memory. -/
theorem test_decode_bounds :
    decodeCells (ws []) = .error .outOfBounds ∧ decodeCells (ws [5, 0]) = .error .outOfBounds ∧
      decodeCells (ws [3]) = .error .outOfBounds ∧ decodeCells (ws [201, 5]) = .error .invalidMode ∧
      decodeCells (ws [1, 5]) = .error .outOfBounds ∧ decodeCells (ws [20001, 5]) = .error .outOfBounds ∧
      decodeCells (ws [99, 7]) = .ok .halt ∧ decodeCells (ws [104, -5]) = .ok (.write (I (-5))) := by decide

/-- The encoder writes the cells of S2, S4 and a Read. -/
theorem test_encode :
    encode (.multiply (P 4) (I 3) (P 4)) = ws [1002, 4, 3, 4] ∧ encode (.lessThan (I 8) (P 21) (P 20)) = ws [107, 8, 21, 20] ∧
      encode (.read (P 21)) = ws [3, 21] ∧ encode .halt = ws [99] := by decide

/-- The second cell of a table word lies above the first; bits from `nbits` up are 0. -/
theorem test_table_word :
    decodeTableWord 128 (104 + 999 * 2 ^ 64) = some (.write (I 999)) ∧ decodeTableWord 64 (104 + 999 * 2 ^ 64) = some (.write (I 0)) ∧
      decodeTableWord 64 0 = none := by decide

/-- From reset, the loaded instruction is the one the next step runs. -/
theorem test_fetch_word :
    (after (step (State.reset.withFetchWord 64 99))).map State.status = some .halted ∧
      (after (step (State.reset.withFetchWord 192 (1105 + 1 * 2 ^ 64 + 46 * 2 ^ 128)))).map State.pc = some 46 := by decide

/-! ## Single steps -/

/-- A1. -/
theorem test_add : after (step (runs [1, 5, 6, 7, 99, 20, 22, 0] 0)) = some (runs [1, 5, 6, 7, 99, 20, 22, 42] 4) := by
  decide

/-- A20: overflow is tested before the destination. -/
theorem test_add_overflow :
    after (step (runs [1101, MAX, 1, 99, 99] 0)) = some (faults .arithmeticOverflow (runs [1101, MAX, 1, 99, 99] 0)) := by
  decide

/-- M3. -/
theorem test_multiply : after (step (runs [1102, -7, 6, 0, 99] 0)) = some (runs [-42, -7, 6, 0, 99] 4) := by decide

/-- M11. -/
theorem test_multiply_overflow :
    after (step (runs [1102, MIN, -1, 0, 99] 0)) = some (faults .arithmeticOverflow (runs [1102, MIN, -1, 0, 99] 0)) := by
  decide

/-- I3: the element at the cursor. -/
theorem test_read :
    after (step (withIn (chan [7, -8] 1) (runs [3, 3, 99, 0] 0))) = some (withIn (chan [7, -8] 2) (runs [3, 3, 99, -8] 2)) := by
  decide

/-- I7: a bad destination consumes nothing. -/
theorem test_read_bad_destination :
    after (step (withIn (chan [8] 0) (runs [3, 4, 99, 0] 0))) =
      some (faults .outOfBounds (withIn (chan [8] 0) (runs [3, 4, 99, 0] 0))) := by decide

/-- W3. -/
theorem test_write :
    after (step (withOut (chan [1, 2] 0) (runs [4, 3, 99, 42] 0))) = some (withOut (chan [1, 2, 42] 0) (runs [4, 3, 99, 42] 2)) := by
  decide

/-- W10: the operand before the binding. -/
theorem test_write_bad_operand :
    after (step (runs [4, 9, 99, 42] 0)) = some (faults .outOfBounds (runs [4, 9, 99, 42] 0)) := by decide

/-- J8: a negative target is stored. -/
theorem test_jump_if_true_taken : after (step (runs [1105, 1, -4, 99] 0)) = some (runs [1105, 1, -4, 99] (-4)) := by decide

/-- J13: the target of a jump not taken is not resolved. -/
theorem test_jump_if_true_not_taken : after (step (runs [105, 0, 9, 99] 0)) = some (runs [105, 0, 9, 99] 3) := by decide

/-- J19. -/
theorem test_jump_if_false_taken : after (step (runs [1106, 0, 0, 99] 0)) = some (runs [1106, 0, 0, 99] 0) := by decide

/-- J21. -/
theorem test_jump_if_false_bad_target :
    after (step (runs [106, 0, 9, 99] 0)) = some (faults .outOfBounds (runs [106, 0, 9, 99] 0)) := by decide

/-- L5: no wrap in the comparison. -/
theorem test_less_than : after (step (runs [1107, MIN, MAX, 4, 99] 0)) = some (runs [1107, MIN, MAX, 4, 1] 4) := by decide

/-- L3: strict. -/
theorem test_less_than_equal :
    after (step (runs [7, 5, 5, 7, 99, 3, 4, -9] 0)) = some (runs [7, 5, 5, 7, 99, 3, 4, 0] 4) := by decide

/-- E5: its own word compared with itself and overwritten. -/
theorem test_equals : after (step (runs [8, 0, 0, 0, 99] 0)) = some (runs [1, 0, 0, 0, 99] 4) := by decide

/-- E3. -/
theorem test_equals_false : after (step (runs [1108, -1, 1, 4, 99] 0)) = some (runs [1108, -1, 1, 4, 0] 4) := by decide

/-- H3. -/
theorem test_halt : after (step (runs [1, 0, 0, 0, 99] 4)) = some (halts (runs [1, 0, 0, 0, 99] 4)) := by decide

/-- H5. -/
theorem test_halt_channels :
    after (step (withIn (chan [1, 2] 0) (withOut (chan [3] 0) (runs [99] 0)))) =
      some (halts (withIn (chan [1, 2] 0) (withOut (chan [3] 0) (runs [99] 0)))) := by decide

/-- F2 and F3: the fetch outside memory. -/
theorem test_fetch_faults :
    after (step (runs [1, 0, 0, 0] 4)) = some (faults .outOfBounds (runs [1, 0, 0, 0] 4)) ∧
      after (step (runs [99] (-1))) = some (faults .outOfBounds (runs [99] (-1))) := by decide

/-- F12 and F13: the order of the decoder's tests. -/
theorem test_decode_faults :
    after (step (runs [201, 5] 0)) = some (faults .invalidMode (runs [201, 5] 0)) ∧
      after (step (runs [20001, 5] 0)) = some (faults .outOfBounds (runs [20001, 5] 0)) := by decide

/-- CH6, CH7 and CH9. -/
theorem test_channel_read :
    (chan [5, -3] 0).read = .ok (5, chan [5, -3] 1) ∧ (chan [5, -3] 1).read = .ok (-3, chan [5, -3] 2) ∧
      (chan [5, -3] 2).read = .error .exhausted := by decide

/-! ## Witnesses: the hypotheses of each statement are met -/

theorem witness_CanonicalWordsAreTheListed :
    Instr.canonical (.add (I 1) (P 2) (P 3)) = true ∧ (1 : Int) ∈ canonicalWords ∧ (1108 : Int) ∈ canonicalWords := by decide

/-- Every class of words: a negative one, no opcode, a bad digit of the last argument, a word that decodes. -/
theorem witness_WordClassesDecideTheOutcome :
    (let fetch : Nat → Option Word := fun k => (ws [-1, 11, 12, 13])[k]?;
      fetch 0 = some (wordOfInt (-1)) ∧ fetch 1 = some 11 ∧ fetch 2 = some 12 ∧ fetch 3 = some 13 ∧
        (wordOfInt (-1)).toInt < 0) ∧
    (0 ≤ (100 : Word).toInt ∧ (100 : Word).toInt % 100 ∉ ([1, 2, 3, 4, 5, 6, 7, 8, 99] : List Int)) ∧
    (0 ≤ (20001 : Word).toInt ∧ (20001 : Word).toInt % 100 = Op.code .add ∧
      ∃ k < Op.argc .add, 2 ≤ digit (20001 : Word).toNat (k + 2)) ∧
    (0 ≤ (11101 : Word).toInt ∧ (11101 : Word).toInt % 100 = Op.code .add ∧
      ∀ k < Op.argc .add, digit (11101 : Word).toNat (k + 2) ≤ 1) := by decide

theorem witness_UnexaminedDigitsHaveNoEffect :
    (0 ≤ (1101 : Word).toInt ∧ 0 ≤ (201101 : Word).toInt ∧ (1101 : Word).toInt % 100 = Op.code .add ∧
      (1101 : Word).toInt % 10 ^ (Op.argc .add + 2) = (201101 : Word).toInt % 10 ^ (Op.argc .add + 2)) ∧
    (0 ≤ (99 : Word).toInt ∧ 0 ≤ (299 : Word).toInt ∧ (99 : Word).toInt % 100 = Op.code .halt ∧
      (99 : Word).toInt % 10 ^ (Op.argc .halt + 2) = (299 : Word).toInt % 10 ^ (Op.argc .halt + 2)) := by decide

theorem witness_DecodeDependsOnlyOnTheInstructionsCells :
    decode (fun k => (ws [4, 7])[k]?) = .ok (.write (P 7)) ∧
      ∀ k < Instr.length (.write (P 7)), (ws [4, 7, 55])[k]? = (ws [4, 7])[k]? := by decide

/-- The first and the last valid address, and the invalid ones beside them. -/
theorem witness_ExactlyTheValidAddressesAreAccessible :
    let m := Memory.ofImage (ws [5, 6, 7])
    ((0 : Int) ≤ 0 ∧ (0 : Int) < m.len) ∧ ((0 : Int) ≤ 2 ∧ (2 : Int) < m.len) ∧ ((-1 : Int) < 0 ∨ (m.len : Int) ≤ -1) ∧
      ((3 : Int) < 0 ∨ (m.len : Int) ≤ 3) := by decide

theorem witness_ArgumentsResolveByRoleAndMode :
    let s := runs [5, 6, 7] 0
    s.mem.cell? (2 : Word).toInt = some 7 ∧ ((3 : Word).toInt < 0 ∨ s.mem.len ≤ (3 : Word).toInt) ∧
      ((wordOfInt (-1)).toInt < 0 ∨ s.mem.len ≤ (wordOfInt (-1)).toInt) := by decide

theorem witness_ImmediateAndPositionAgree : (runs [5, 6, 7] 0).mem.cell? (0 : Word).toInt = some 5 := by decide

/-- The clauses of Add in order: the greatest sum that fits, unreadable operands, a sum one too great and one too small,
a destination just outside memory. -/
theorem witness_AddFollowsItsRule :
    let s := runs [0, 1] 0
    (s.val (I MAX) = .ok (wordOfInt MAX) ∧ s.val (P 0) = .ok 0 ∧ (wordOfInt MAX).toInt + (0 : Word).toInt ≤ 2 ^ 63 - 1 ∧
      -2 ^ 63 ≤ (wordOfInt MAX).toInt + (0 : Word).toInt ∧ s.mem.inRange (dst (P 1)).toInt = true) ∧
    Unreadable s (P (-1)) ∧ (s.val (P 1) = .ok 1 ∧ Unreadable s (P 2)) ∧
    (s.val (I MAX) = .ok (wordOfInt MAX) ∧ s.val (P 1) = .ok 1 ∧ 2 ^ 63 - 1 < (wordOfInt MAX).toInt + (1 : Word).toInt) ∧
    (s.val (I MIN) = .ok (wordOfInt MIN) ∧ s.val (I (-1)) = .ok (wordOfInt (-1)) ∧
      (wordOfInt MIN).toInt + (wordOfInt (-1)).toInt < -2 ^ 63) ∧
    (s.val (I MIN) = .ok (wordOfInt MIN) ∧ s.val (P 0) = .ok 0 ∧ -2 ^ 63 ≤ (wordOfInt MIN).toInt + (0 : Word).toInt ∧
      s.mem.inRange (dst (P 2)).toInt = false) := by unfold Unreadable; decide

/-- The clauses of Multiply in order. -/
theorem witness_MultiplyFollowsItsRule :
    let s := runs [0, 1] 0
    (s.val (I MIN) = .ok (wordOfInt MIN) ∧ s.val (P 1) = .ok 1 ∧ -2 ^ 63 ≤ (wordOfInt MIN).toInt * (1 : Word).toInt ∧
      (wordOfInt MIN).toInt * (1 : Word).toInt ≤ 2 ^ 63 - 1 ∧ s.mem.inRange (dst (P 1)).toInt = true) ∧
    Unreadable s (P 2) ∧ (s.val (P 1) = .ok 1 ∧ Unreadable s (P (-1))) ∧
    (s.val (I MIN) = .ok (wordOfInt MIN) ∧ s.val (I (-1)) = .ok (wordOfInt (-1)) ∧
      2 ^ 63 - 1 < (wordOfInt MIN).toInt * (wordOfInt (-1)).toInt) ∧
    (s.val (I MIN) = .ok (wordOfInt MIN) ∧ s.val (I 2) = .ok 2 ∧ (wordOfInt MIN).toInt * (2 : Word).toInt < -2 ^ 63) ∧
    (s.val (I MAX) = .ok (wordOfInt MAX) ∧ s.val (P 1) = .ok 1 ∧ (wordOfInt MAX).toInt * (1 : Word).toInt ≤ 2 ^ 63 - 1 ∧
      s.mem.inRange (dst (P (-1))).toInt = false) := by unfold Unreadable; decide

/-- The clauses of Read in order: the last element, no channel, all consumed, a destination just outside memory. -/
theorem witness_ReadFollowsItsRule :
    let s := withIn (chan [7, 8] 1) (runs [3, 1] 0)
    (s.input = some (chan [7, 8] 1) ∧ (chan [7, 8] 1).items[(chan [7, 8] 1).cur]? = some 8 ∧
      s.mem.inRange (dst (P 1)).toInt = true) ∧
    (runs [3, 1] 0).input = none ∧ (chan [7] 1).items.length ≤ (chan [7] 1).cur ∧
    ((chan [7, 8] 1).cur < (chan [7, 8] 1).items.length ∧ s.mem.inRange (dst (P 2)).toInt = false) := by decide

/-- The clauses of Write in order. -/
theorem witness_WriteFollowsItsRule :
    let s := withOut (chan [] 0) (runs [4, 1] 0)
    (s.val (P 1) = .ok 1 ∧ s.output = some (chan [] 0)) ∧ Unreadable s (P 2) ∧
      ((runs [4, 1] 0).val (I 9) = .ok 9 ∧ (runs [4, 1] 0).output = none) := by unfold Unreadable; decide

/-- The clauses of JumpIfTrue in order. -/
theorem witness_JumpIfTrueFollowsItsRule :
    let s := runs [5, 0] 0
    (s.val (I (-1)) = .ok (wordOfInt (-1)) ∧ (wordOfInt (-1)).toInt ≠ 0 ∧ s.val (P 0) = .ok 5) ∧
      (s.val (P 1) = .ok 0 ∧ (0 : Word).toInt = 0) ∧ Unreadable s (P 2) ∧ Unreadable s (P (-1)) ∧ (5 : Word).toInt ≠ 0 := by
  unfold Unreadable; decide

/-- The clauses of JumpIfFalse in order. -/
theorem witness_JumpIfFalseFollowsItsRule :
    let s := runs [6, 0] 0
    (s.val (P 1) = .ok 0 ∧ (0 : Word).toInt = 0 ∧ s.val (P 0) = .ok 6) ∧
      (s.val (I 1) = .ok 1 ∧ (1 : Word).toInt ≠ 0) ∧ Unreadable s (P 2) ∧ Unreadable s (P (-1)) := by
  unfold Unreadable; decide

/-- The clauses of LessThan in order. -/
theorem witness_LessThanFollowsItsRule :
    let s := runs [7, 1] 0
    (s.val (P 0) = .ok 7 ∧ s.val (I MIN) = .ok (wordOfInt MIN) ∧ s.mem.inRange (dst (P 1)).toInt = true) ∧
      Unreadable s (P 2) ∧ (s.val (P 1) = .ok 1 ∧ Unreadable s (P (-1))) ∧ s.mem.inRange (dst (P 2)).toInt = false := by
  unfold Unreadable; decide

/-- The clauses of Equals in order. -/
theorem witness_EqualsFollowsItsRule :
    let s := runs [8, 1] 0
    (s.val (P 0) = .ok 8 ∧ s.val (I 8) = .ok 8 ∧ s.mem.inRange (dst (P 0)).toInt = true) ∧
      Unreadable s (P 2) ∧ (s.val (P 1) = .ok 1 ∧ Unreadable s (P (-1))) ∧ s.mem.inRange (dst (P (-1))).toInt = false := by
  unfold Unreadable; decide

/-- The least and the greatest Halt word. -/
theorem witness_HaltFollowsItsRule :
    (0 ≤ (99 : Word).toInt ∧ (99 : Word).toInt % 100 = 99) ∧
      (0 ≤ (9223372036854775799 : Word).toInt ∧ (9223372036854775799 : Word).toInt % 100 = 99) := by decide

theorem witness_StepRunsTheDecodedInstruction :
    (runs [104, 5] 0).status = .running ∧ decode (runs [104, 5] 0).fetch = .ok (.write (I 5)) := by decide

/-- An instruction standing at the last cells of memory. -/
theorem witness_InstructionStandingAtPcIsRun :
    let s := runs [0, 104, 5] 1
    s.status = .running ∧ ∀ k < (encode (.write (I 5))).length, s.mem.cell? (s.pc.toInt + k) = (encode (.write (I 5)))[k]? := by
  decide

theorem witness_DecodeFailureIsFatalWithoutEffect :
    (runs [98] 0).status = .running ∧ decode (runs [98] 0).fetch = .error .invalidOpcode ∧
      decode (runs [201] 0).fetch = .error .invalidMode ∧ decode (runs [1] 0).fetch = .error .outOfBounds := by decide

theorem witness_FetchOutsideMemoryFaults :
    ((runs [99] (-1)).status = .running ∧ (runs [99] (-1)).pc.toInt < 0) ∧
      ((runs [99] 1).status = .running ∧ ((runs [99] 1).mem.len : Int) ≤ (runs [99] 1).pc.toInt) ∧
      ((runs [] 0).mem.len : Int) ≤ (runs [] 0).pc.toInt := by decide

theorem witness_ExactlyRunningEnginesStep :
    (construct (ws [99])).status = .ready ∧ (runs [99] 0).status = .running ∧ (halts (runs [99] 0)).status = .halted ∧
      (faults .outOfBounds (runs [] 0)).status = .faulted := by decide

theorem witness_FaultedCyclesChangeNothingElse :
    (after (step (runs [1101, MAX, 1, 0] 0))).map State.status = some .faulted := by decide

theorem witness_CausesEachInstructionCanRaise :
    ((runs [3, 0] 0).status ≠ .faulted ∧ (after (exec (.read (P 0)) (runs [3, 0] 0))).map State.status = some .faulted) ∧
      decode (fun _ => none) = .error .outOfBounds := by decide

theorem witness_NormalEndExactlyAtAHaltWord :
    (after (step (runs [199] 0))).map State.status = some .halted ∧ (runs [199] 0).mem.cell? 0 = some 199 ∧
      (after (step (runs [104, 99] 0))).map State.status = some .faulted := by decide

/-- An advance to `LEN`, a taken jump, a Halt. -/
theorem witness_ProgramCounterAdvancesOrRedirects :
    ((runs [1, 0, 0, 0] 0).Inv ∧ decode (runs [1, 0, 0, 0] 0).fetch = .ok (.add (P 0) (P 0) (P 0)) ∧
      (after (step (runs [1, 0, 0, 0] 0))).map State.status = some .running) ∧
    ((runs [1105, 1, -4] 0).Inv ∧ decode (runs [1105, 1, -4] 0).fetch = .ok (.jumpIfTrue (I 1) (I (-4))) ∧
      (runs [1105, 1, -4] 0).val (I 1) = .ok 1 ∧ (1 : Word).toInt ≠ 0) ∧
    ((runs [1106, 0, 9] 0).Inv ∧ decode (runs [1106, 0, 9] 0).fetch = .ok (.jumpIfFalse (I 0) (I 9)) ∧
      (runs [1106, 0, 9] 0).val (I 0) = .ok 0) ∧
    ((runs [99] 0).Inv ∧ decode (runs [99] 0).fetch = .ok .halt) := by decide

/-- The jump condition of the clause on taken jumps. -/
theorem witness_Redirects : Redirects (runs [1105, 1, -4] 0) (.jumpIfTrue (I 1) (I (-4))) (I (-4)) :=
  ⟨rfl, 1, rfl, by decide⟩

/-- A step that decodes and stores, with a cell that is not the destination, and one that does not decode. -/
theorem witness_StepStoresOnlyAtTheDestination :
    (after (step (runs [1101, 1, 2, 3] 0))).isSome = true ∧
      decode (runs [1101, 1, 2, 3] 0).fetch = .ok (.add (I 1) (I 2) (P 3)) ∧
      storeAddress (.add (I 1) (I 2) (P 3)) ≠ some 2 ∧ storeAddress (.write (P 3)) ≠ some 3 ∧
      (after (step (runs [98] 0))).isSome = true ∧ decode (runs [98] 0).fetch = .error .invalidOpcode := by decide

theorem witness_ChannelsMoveOneElementAtATime :
    (after (step (withIn (chan [8] 0) (runs [3, 0] 0)))).map State.input = some (some (chan [8] 1)) ∧
      (after (step (withOut (chan [] 0) (runs [104, 7] 0)))).map State.output = some (some (chan [7] 0)) := by decide

/-- A state of each kind of step with the invariant. -/
theorem witness_StepKeepsTheInvariant :
    ((withIn (chan [8] 0) (runs [3, 0] 0)).Inv ∧ (after (step (withIn (chan [8] 0) (runs [3, 0] 0)))).isSome = true) ∧
      ((runs [1, 0, 0, 0] 0).Inv ∧ (after (step (runs [1, 0, 0, 0] 0))).isSome = true) ∧
      ((runs [] 0).Inv ∧ (after (step (runs [] 0))).isSome = true) := by decide

theorem witness_OutcomesAreDistinguishable :
    (runs [1] 0).Inv ∧ (runs [2] 0).Inv ∧ (runs [1] 0).outcome = (runs [2] 0).outcome ∧
      (faults .outOfBounds (runs [1] 0)).Inv ∧ (faults .invalidMode (runs [1] 0)).Inv ∧
      (faults .outOfBounds (runs [1] 0)).outcome = (faults .outOfBounds (runs [2] 0)).outcome := by decide

theorem witness_EndedRunsAreAbsorbing :
    (run 1 (runs [99] 0)).ended = true ∧ (run 1 (runs [] 0)).ended = true ∧ (halts (runs [99] 0)).ended = true ∧
      (faults .outOfBounds (runs [] 0)).ended = true := by decide

/-- A state with a cycle, and the two without one that a run can come to. -/
theorem witness_RunsCompose :
    step (runs [99] 0) = .next (halts (runs [99] 0)) ∧ (∀ t, step (halts (runs [99] 0)) ≠ .next t) ∧
      ∀ t, step (faults .outOfBounds (runs [] 0)) ≠ .next t :=
  ⟨rfl, by simp [step, halts], by simp [step, faults]⟩

theorem witness_ChannelReadFollowsItsRules :
    (chan [] 0).items = [] ∧ (chan [7, 8] 1).items[(chan [7, 8] 1).cur]? = some 8 ∧ (chan [7, 8] 2).canRead = false := by
  decide

theorem witness_ChannelDeliversInOrderExactlyOnce :
    ((chan [7, 8] 1).wf = true ∧ (chan [7, 8] 1).cur + 1 ≤ (chan [7, 8] 1).items.length ∧
      (chan [7, 8] 1).items.length < (chan [7, 8] 1).cur + 2) ∧
    ((chan [7, 8] 2).cur = (chan [7, 8] 2).items.length ∧ 2 ≤ (ws [5, 6]).length) ∧
    ((chan [7, 8] 2).wf = true ∧ (chan [7, 8] 2).read = .error .exhausted) := by decide

theorem witness_ConstructCopiesTheImage : (ws [1, 0, -5]).length ≤ 2 ^ 63 - 1 ∧ (ws []).length ≤ 2 ^ 63 - 1 := by decide

theorem witness_BindingIsForReadyOnly :
    (construct (ws [99])).status = .ready ∧ (runs [99] 0).status ≠ .ready ∧ (halts (runs [99] 0)).status ≠ .ready := by decide

theorem witness_ExecuteBeginsTheRun :
    (construct (ws [99])).status = .ready ∧ (faults .outOfBounds (runs [] 0)).status ≠ .ready := by decide

theorem witness_HostInspectsAfterTheRun :
    let s := halts (withOut (chan [7, 8] 1) (runs [99] 0))
    let u := halts (withOut (chan [7, 8] 2) (runs [99] 0))
    (s.ended = true ∧ s.output = some (chan [7, 8] 1) ∧ (chan [7, 8] 1).items[(chan [7, 8] 1).cur]? = some 8) ∧
      (u.ended = true ∧ u.output = some (chan [7, 8] 2) ∧ (chan [7, 8] 2).canRead = false) := by decide

theorem witness_ChainHandsTheOutputOver :
    (halts (withOut (chan [7] 0) (runs [99] 0))).ended = true ∧
      (halts (withOut (chan [7] 0) (runs [99] 0))).output = some (chan [7] 0) ∧ (construct (ws [99])).status = .ready := by
  decide

/-- Each host operation succeeds on a state with the invariant. -/
theorem witness_HostOperationsKeepTheInvariant :
    let s := construct (ws [99])
    let fin := halts (withOut (chan [7] 0) (runs [99] 0))
    (s.Inv ∧ (chan [7] 1).wf = true ∧ (after (setInputChannel (chan [7] 1) s)).isSome = true ∧
      (after (setOutputChannel (chan [7] 1) s)).isSome = true ∧ (after (execute s)).isSome = true) ∧
    ((withIn (chan [] 0) s).Inv ∧ (after (supplyInput 5 (withIn (chan [] 0) s))).isSome = true) ∧
    (fin.Inv ∧ (after (collectOutput fin)).isSome = true ∧ (after (handOff fin s)).isSome = true) := by decide

/-- The clauses in order: READY with and without an input channel, the three other states, RUNNING, an ended run without
an output channel. -/
theorem witness_HostChannelMovesKeepToTheirMoments :
    ((withIn (chan [7] 1) (construct (ws [99]))).status = .ready ∧
      (withIn (chan [7] 1) (construct (ws [99]))).input = some (chan [7] 1)) ∧
    ((construct (ws [99])).status = .ready ∧ (construct (ws [99])).input = none) ∧
    ((runs [99] 0).status ≠ .ready ∧ (halts (runs [99] 0)).status ≠ .ready ∧
      (faults .outOfBounds (runs [] 0)).status ≠ .ready) ∧
    ((runs [99] 0).ended = false ∧ (construct (ws [99])).ended = false) ∧
    ((halts (runs [99] 0)).ended = true ∧ (halts (runs [99] 0)).output = none) := by decide

end Sys2Proof.Tests
end

section
/-! The statements of spec/10_state.md: the channels under a step, the reset values, the codes of the run outcome. -/

namespace Sys2Proof.Machine

/-! ## What one instruction does to the channels -/

theorem sameChannels_takeFault (c : Cause) (s : State) : SameChannels s (s.takeFault c) := ⟨rfl, rfl⟩

theorem threeOperand_sameChannels {op : Op} {f : Word → Word → Except Cause Word} {a0 a1 a2 : Arg} {s t : State}
    (h : threeOperand op f a0 a1 a2 s = .next t) : SameChannels s t := by
  rcases threeOperand_cases op f a0 a1 a2 s with ⟨_, _, he⟩ | ⟨_, _, _, _, he⟩ | ⟨_, _, _, _, _, _, he⟩ |
      ⟨_, _, _, _, _, _, _, he⟩ | ⟨_, _, _, _, _, _, _, he⟩ <;> cases he.symm.trans h <;> exact ⟨rfl, rfl⟩

theorem jumpWhen_sameChannels {op : Op} {taken : Word → Bool} {a0 a1 : Arg} {s t : State}
    (h : jumpWhen op taken a0 a1 s = .next t) : SameChannels s t := by
  rcases jumpWhen_cases op taken a0 a1 s with ⟨_, _, he⟩ | ⟨_, _, _, he⟩ | ⟨_, _, _, _, _, he⟩ |
      ⟨_, _, _, _, _, he⟩ <;> cases he.symm.trans h <;> exact ⟨rfl, rfl⟩

theorem execHalt_sameChannels {s t : State} (h : execHalt s = .next t) : SameChannels s t := by
  cases (execHalt_eq s).symm.trans h
  exact ⟨rfl, rfl⟩

/-- Every operation but Read and Write leaves both channels (R94, R95, R100 to R105). -/
theorem exec_sameChannels {i : Instr} {s t : State} (hr : ∀ a0, i ≠ .read a0) (hw : ∀ a0, i ≠ .write a0)
    (h : exec i s = .next t) : SameChannels s t := by
  cases i with
  | add => exact threeOperand_sameChannels h
  | multiply => exact threeOperand_sameChannels h
  | read a0 => exact absurd rfl (hr a0)
  | write a0 => exact absurd rfl (hw a0)
  | jumpIfTrue => exact jumpWhen_sameChannels h
  | jumpIfFalse => exact jumpWhen_sameChannels h
  | lessThan => exact threeOperand_sameChannels h
  | equals => exact threeOperand_sameChannels h
  | halt => exact execHalt_sameChannels h

/-- Read leaves both channels, where it faults, or moves the input cursor past one element that was left (R98). -/
theorem execRead_channels {a0 : Arg} {s t : State} (h : execRead a0 s = .next t) :
    SameChannels s t ∨ (t.output = s.output ∧ ∃ ch, s.input = some ch ∧ ch.cur < ch.items.length ∧
      t.input = some ⟨ch.items, ch.cur + 1⟩) := by
  rcases execRead_cases a0 s with ⟨_, he⟩ | ⟨_, _, _, he⟩ | ⟨_, _, _, _, he⟩ | ⟨ch, v, hi, hv, _, he⟩ <;>
    cases he.symm.trans h
  · exact .inl (sameChannels_takeFault _ s)
  · exact .inl (sameChannels_takeFault _ s)
  · exact .inl (sameChannels_takeFault _ s)
  · have hlt : ch.cur < ch.items.length := (List.getElem?_eq_some_iff.1 hv).1
    exact .inr ⟨rfl, ch, hi, hlt, rfl⟩

/-- Write leaves both channels, where it faults, or appends one element to the output (R99). -/
theorem execWrite_channels {a0 : Arg} {s t : State} (h : execWrite a0 s = .next t) :
    SameChannels s t ∨ (t.input = s.input ∧ ∃ ch v, s.output = some ch ∧
      t.output = some ⟨ch.items ++ [v], ch.cur⟩) := by
  rcases execWrite_cases a0 s with ⟨_, _, he⟩ | ⟨_, _, _, he⟩ | ⟨v, ch, _, ho, he⟩ <;> cases he.symm.trans h
  · exact .inl (sameChannels_takeFault _ s)
  · exact .inl (sameChannels_takeFault _ s)
  · exact .inr ⟨rfl, ch, v, ho, rfl⟩

/-- Everything an instruction can do to the channels: nothing, or it is a Read that consumes, or a Write that appends. -/
theorem exec_channels {i : Instr} {s t : State} (h : exec i s = .next t) :
    SameChannels s t ∨
    (∃ a0, i = .read a0 ∧ t.output = s.output ∧ ∃ ch, s.input = some ch ∧ ch.cur < ch.items.length ∧
      t.input = some ⟨ch.items, ch.cur + 1⟩) ∨
    (∃ a0, i = .write a0 ∧ t.input = s.input ∧ ∃ ch v, s.output = some ch ∧
      t.output = some ⟨ch.items ++ [v], ch.cur⟩) := by
  by_cases hr : ∃ a0, i = .read a0
  · obtain ⟨a0, rfl⟩ := hr
    exact (execRead_channels h).imp_right fun hc => .inl ⟨a0, rfl, hc⟩
  by_cases hw : ∃ a0, i = .write a0
  · obtain ⟨a0, rfl⟩ := hw
    exact (execWrite_channels h).imp_right fun hc => .inr ⟨a0, rfl, hc⟩
  · exact .inl (exec_sameChannels (not_exists.1 hr) (not_exists.1 hw) h)

/-- Settles O31: a decode failure leaves both channels, and a decoded instruction does one of the things `exec_channels`
lists. -/
theorem channelsMoveOneElementAtATime : Obligations.ChannelsMoveOneElementAtATime := by
  intro s t h
  obtain ⟨-, ⟨c, -, rfl⟩ | ⟨i, hd, he⟩⟩ := step_next h
  · exact ⟨.inl rfl, .inl rfl⟩
  · rcases exec_channels he with ⟨hin, hout⟩ | ⟨a0, rfl, hout, ch, hch, hlt, hin⟩ | ⟨a0, rfl, hin, ch, v, hch, hout⟩
    · exact ⟨.inl hin, .inl hout⟩
    · exact ⟨.inr ⟨ch, a0, hch, hd, hlt, hin⟩, .inl hout⟩
    · exact ⟨.inl hin, .inr ⟨ch, a0, v, hch, hd, hout⟩⟩

/-! ## Reset -/

/-- Construction from any legal image gives a state with the invariant: no channel is bound yet and `CAUSE` is 0 (R130). -/
theorem construct_inv {image : List Word} (h : image.length ≤ Config.maxLen) : (construct image).Inv :=
  ⟨ofImage_wf h, rfl, rfl, by simp [construct]⟩

/-- Settles O33: reset is construction from the empty image. -/
theorem resetMeetsTheInvariant : Obligations.ResetMeetsTheInvariant := by
  unfold Obligations.ResetMeetsTheInvariant
  rw [reset_eq_construct]
  exact construct_inv (Nat.zero_le _)

/-! ## Codes -/

/-- Settles O34: each code is an equation of `Status.code` or `causeCode`. -/
theorem outcomeCodesAreTheListed : Obligations.OutcomeCodesAreTheListed :=
  ⟨rfl, rfl, rfl, rfl, rfl, rfl, rfl, rfl, rfl, rfl, rfl, rfl⟩

end Sys2Proof.Machine
end

section
/-! The statements of spec/20_memory.md: which addresses an access reaches, and the one cell a step may store to. -/

namespace Sys2Proof.Machine

/-! ## Checked access (R30 to R32) -/

theorem inRange_eq_false_iff (m : Memory) (a : Int) : m.inRange a = false ↔ a < 0 ∨ m.len ≤ a := by
  rw [← Bool.not_eq_true, inRange_iff]
  omega

theorem read_of_inRange {m : Memory} {a : Int} (h : m.inRange a = true) : ∃ u, m.read a = .ok u :=
  ⟨_, read_ok_iff.2 (cell_of_inRange h)⟩

theorem read_of_not_inRange {m : Memory} {a : Int} (h : m.inRange a = false) : m.read a = .error .outOfBounds :=
  read_error_iff.2 ⟨h, rfl⟩

theorem write_of_inRange {m : Memory} {a : Int} (v : Word) (h : m.inRange a = true) : m.write a v = .ok (m.put a v) :=
  if_pos h

theorem write_of_not_inRange {m : Memory} {a : Int} (v : Word) (h : m.inRange a = false) :
    m.write a v = .error .outOfBounds :=
  if_neg (Bool.eq_false_iff.1 h)

theorem read_put_same {m : Memory} {a : Int} (v : Word) (h : m.inRange a = true) : (m.put a v).read a = .ok v :=
  read_ok_iff.2 (put_cell_same v h)

theorem read_put_other {m : Memory} {a b : Int} (v : Word) (ha : m.inRange a = true) (h : b ≠ a) :
    (m.put a v).read b = m.read b := by
  simp only [Memory.read, put_cell_other v ha h]

/-- Settles O9: in range a write is a `put`, whose reads are known at every address; out of range both accesses fail. -/
theorem exactlyTheValidAddressesAreAccessible : Obligations.ExactlyTheValidAddressesAreAccessible := by
  intro m a v
  constructor
  · intro hin
    have ha := (inRange_iff m a).2 hin
    exact ⟨read_of_inRange ha, m.put a v, write_of_inRange v ha, read_put_same v ha, put_len m a v,
      fun _ => read_put_other v ha⟩
  · intro hout
    have ha := (inRange_eq_false_iff m a).2 hout
    exact ⟨read_of_not_inRange ha, write_of_not_inRange v ha⟩

/-! ## What one instruction does to memory (R33) -/

/-- `t`'s memory is `s`'s, or `s`'s with one value put at the address `dest` names, a valid one. -/
def StoresAtMost (dest : Option Int) (s t : State) : Prop :=
  t.mem = s.mem ∨ ∃ a v, dest = some a ∧ s.mem.inRange a = true ∧ t.mem = s.mem.put a v

theorem StoresAtMost.len_eq {dest : Option Int} {s t : State} (h : StoresAtMost dest s t) :
    t.mem.len = s.mem.len := by
  rcases h with hm | ⟨a, v, -, -, hm⟩
  · rw [hm]
  · rw [hm, put_len]

theorem StoresAtMost.cell_eq {dest : Option Int} {s t : State} (h : StoresAtMost dest s t) {b : Int}
    (hb : dest ≠ some b) : t.mem.cell? b = s.mem.cell? b := by
  rcases h with hm | ⟨a, v, rfl, ha, hm⟩
  · rw [hm]
  · have hne : b ≠ a := fun hba => hb (congrArg some hba.symm)
    rw [hm, put_cell_other v ha hne]

theorem threeOperand_storesAtMost {op : Op} {f : Word → Word → Except Cause Word} {a0 a1 a2 : Arg} {s t : State}
    (h : threeOperand op f a0 a1 a2 s = .next t) : StoresAtMost (some (dst a2).toInt) s t := by
  rcases threeOperand_cases op f a0 a1 a2 s with ⟨_, _, he⟩ | ⟨_, _, _, _, he⟩ | ⟨_, _, _, _, _, _, he⟩ |
      ⟨_, _, _, _, _, _, _, he⟩ | ⟨_, _, r, _, _, _, hin, he⟩ <;> cases he.symm.trans h
  case inr.inr.inr.inr => exact .inr ⟨_, r, rfl, hin, rfl⟩
  all_goals exact .inl rfl

theorem execRead_storesAtMost {a0 : Arg} {s t : State} (h : execRead a0 s = .next t) :
    StoresAtMost (some (dst a0).toInt) s t := by
  rcases execRead_cases a0 s with ⟨_, he⟩ | ⟨_, _, _, he⟩ | ⟨_, _, _, _, he⟩ | ⟨_, v, _, _, hin, he⟩ <;>
    cases he.symm.trans h
  case inr.inr.inr => exact .inr ⟨_, v, rfl, hin, rfl⟩
  all_goals exact .inl rfl

theorem execWrite_mem {a0 : Arg} {s t : State} (h : execWrite a0 s = .next t) : t.mem = s.mem := by
  rcases execWrite_cases a0 s with ⟨_, _, he⟩ | ⟨_, _, _, he⟩ | ⟨_, _, _, _, he⟩ <;> cases he.symm.trans h <;> rfl

theorem jumpWhen_mem {op : Op} {taken : Word → Bool} {a0 a1 : Arg} {s t : State}
    (h : jumpWhen op taken a0 a1 s = .next t) : t.mem = s.mem := by
  rcases jumpWhen_cases op taken a0 a1 s with ⟨_, _, he⟩ | ⟨_, _, _, he⟩ | ⟨_, _, _, _, _, he⟩ |
      ⟨_, _, _, _, _, he⟩ <;> cases he.symm.trans h <;> rfl

theorem execHalt_mem {s t : State} (h : execHalt s = .next t) : t.mem = s.mem := by
  cases (execHalt_eq s).symm.trans h
  rfl

/-- Everything an instruction can do to memory: nothing, or one valid store at its destination (R33). -/
theorem exec_storesAtMost {i : Instr} {s t : State} (h : exec i s = .next t) : StoresAtMost (storeAddress i) s t := by
  cases i with
  | add => exact threeOperand_storesAtMost h
  | multiply => exact threeOperand_storesAtMost h
  | read => exact execRead_storesAtMost h
  | write => exact .inl (execWrite_mem h)
  | jumpIfTrue => exact .inl (jumpWhen_mem h)
  | jumpIfFalse => exact .inl (jumpWhen_mem h)
  | lessThan => exact threeOperand_storesAtMost h
  | equals => exact threeOperand_storesAtMost h
  | halt => exact .inl (execHalt_mem h)

/-- Settles O30: a decode failure leaves memory, and a decoded instruction does one of the things `exec_storesAtMost`
lists. -/
theorem stepStoresOnlyAtTheDestination : Obligations.StepStoresOnlyAtTheDestination := by
  intro s t h
  obtain ⟨-, ⟨c, -, rfl⟩ | ⟨i, hd, he⟩⟩ := step_next h
  · exact ⟨rfl, fun _ _ => rfl, fun _ _ _ _ => rfl⟩
  · have hst := exec_storesAtMost he
    refine ⟨hst.len_eq, fun c hc => ?_, fun j hj b hb => ?_⟩
    · cases hd.symm.trans hc
    · cases hd.symm.trans hj
      exact hst.cell_eq hb

end Sys2Proof.Machine
end

section
/-! The statements of spec/30_encoding.md: which words and cells decode to which instruction, in which order the decoder
tests, and which digits nothing depends on. -/

namespace Sys2Proof

open Machine

/-! ## An instruction as the spec's pair of an operation and its arguments (R65) -/

/-- The pair `(op, args)` an instruction is. -/
def Instr.term (i : Instr) : Term := ⟨i.op, i.args⟩

theorem arity (i : Instr) : Laws.Arity.Statement i := by
  cases i with
  | add => apply Laws.Arity.add
  | multiply => apply Laws.Arity.multiply
  | read => apply Laws.Arity.read
  | write => apply Laws.Arity.write
  | jumpIfTrue => apply Laws.Arity.jumpIfTrue
  | jumpIfFalse => apply Laws.Arity.jumpIfFalse
  | lessThan => apply Laws.Arity.lessThan
  | equals => apply Laws.Arity.equals
  | halt => exact Laws.Arity.halt

theorem args_length (i : Instr) : i.args.length = i.op.argc := (arity i).1

theorem toInstr_term (i : Instr) : i.term.toInstr = some i := (arity i).2

theorem term_injective : Function.Injective Instr.term := fun i j h =>
  Option.some.inj (by rw [← toInstr_term i, h, toInstr_term j])

theorem argc_le_three (op : Op) : op.argc ≤ 3 := by cases op <;> decide

/-- The fields of every encoded word: no sign, the opcode, one mode digit per argument (R46, R52). -/
theorem wordFields (i : Instr) : Laws.WordFields.Statement i := by
  cases i with
  | add => apply Laws.WordFields.add
  | multiply => apply Laws.WordFields.multiply
  | read => apply Laws.WordFields.read
  | write => apply Laws.WordFields.write
  | jumpIfTrue => apply Laws.WordFields.jumpIfTrue
  | jumpIfFalse => apply Laws.WordFields.jumpIfFalse
  | lessThan => apply Laws.WordFields.lessThan
  | equals => apply Laws.WordFields.equals
  | halt => exact Laws.WordFields.halt

/-! ## The opcode of a word (R49, R50, R57) -/

theorem opOfWord_eq_some_iff {w : Word} {op : Op} :
    opOfWord w = some op ↔ 0 ≤ w.toInt ∧ w.toInt % 100 = op.code := by
  unfold opOfWord
  split
  · constructor
    · nofun
    · omega
  · have hnat : (w.toNat : Int) = w.toInt := toNat_of_nonneg (by omega)
    constructor
    · intro h
      have hcode := ofCode_eq_some h
      omega
    · rintro ⟨-, hcode⟩
      rw [show w.toNat % 100 = op.code by omega, ofCode_code]

/-- The nine opcodes the statements list are the codes of the nine operations (R50). -/
theorem mem_opcodes_iff {v : Int} : v ∈ ([1, 2, 3, 4, 5, 6, 7, 8, 99] : List Int) ↔ ∃ op : Op, v = op.code := by
  constructor
  · intro h
    simp only [List.mem_cons, List.not_mem_nil, or_false] at h
    rcases h with rfl | rfl | rfl | rfl | rfl | rfl | rfl | rfl | rfl
    exacts [⟨.add, rfl⟩, ⟨.multiply, rfl⟩, ⟨.read, rfl⟩, ⟨.write, rfl⟩, ⟨.jumpIfTrue, rfl⟩, ⟨.jumpIfFalse, rfl⟩,
      ⟨.lessThan, rfl⟩, ⟨.equals, rfl⟩, ⟨.halt, rfl⟩]
  · rintro ⟨op, rfl⟩
    cases op <;> decide

theorem opOfWord_eq_none_iff {w : Word} :
    opOfWord w = none ↔ w.toInt < 0 ∨ w.toInt % 100 ∉ ([1, 2, 3, 4, 5, 6, 7, 8, 99] : List Int) := by
  simp only [Option.eq_none_iff_forall_ne_some, ne_eq, opOfWord_eq_some_iff, mem_opcodes_iff, not_exists, not_and_or,
    Int.not_le, forall_or_left]

/-! ## Results of checks -/

theorem bind_eq_ok_iff {α β : Type} {x : Except Cause α} {f : α → Except Cause β} {b : β} :
    x >>= f = .ok b ↔ ∃ a, x = .ok a ∧ f a = .ok b := by
  cases x <;> simp

theorem bind_eq_error_iff {α β : Type} {x : Except Cause α} {f : α → Except Cause β} {c : Cause} :
    x >>= f = .error c ↔ x = .error c ∨ ∃ a, x = .ok a ∧ f a = .error c := by
  cases x <;> simp

theorem map_eq_ok_iff {α β : Type} {f : α → β} {x : Except Cause α} {b : β} :
    f <$> x = .ok b ↔ ∃ a, x = .ok a ∧ f a = b := by
  cases x <;> simp

theorem map_eq_error_iff {α β : Type} {f : α → β} {x : Except Cause α} {c : Cause} :
    f <$> x = .error c ↔ x = .error c := by
  cases x <;> simp

/-! ## The arguments, one at a time (R58) -/

/-- Argument `k` of the instruction at hand is `a`: its raw value is the cell in its place and its mode is what its digit
says (R48, R52). -/
def ArgAt (fetch : Nat → Option Word) (w : Word) (k : Nat) (a : Arg) : Prop :=
  fetch (1 + k) = some a.raw ∧ digit w.toNat (k + 2) = a.mode.digit

theorem decodeArg_ok_iff {fetch : Nat → Option Word} {w : Word} {k : Nat} {a : Arg} :
    decodeArg fetch w k = .ok a ↔ ArgAt fetch w k a := by
  constructor
  · intro h
    rcases decodeArg_cases fetch w k with ⟨-, he⟩ | ⟨-, -, he⟩ | ⟨raw, mode, hd, hf, he⟩ <;> cases he.symm.trans h
    exact ⟨hf, hd⟩
  · rintro ⟨hraw, hmode⟩
    simp only [decodeArg, hmode, modeOfDigit_digit, hraw]

/-- The arguments in the places `ks`, decoded in that order: the loop of R58. -/
def decodeArgs (fetch : Nat → Option Word) (w : Word) (ks : List Nat) : Except Cause (List Arg) :=
  ks.mapM (decodeArg fetch w)

@[simp] theorem decodeArgs_nil (fetch : Nat → Option Word) (w : Word) : decodeArgs fetch w [] = .ok [] := rfl

@[simp] theorem decodeArgs_cons (fetch : Nat → Option Word) (w : Word) (k : Nat) (ks : List Nat) :
    decodeArgs fetch w (k :: ks) = (do
      let a ← decodeArg fetch w k
      let as ← decodeArgs fetch w ks
      return a :: as) :=
  List.mapM_cons

/-- The loop answers exactly the arguments that stand in their places. -/
theorem decodeArgs_ok_iff {fetch : Nat → Option Word} {w : Word} {ks : List Nat} {as : List Arg} :
    decodeArgs fetch w ks = .ok as ↔ List.Forall₂ (ArgAt fetch w) ks as := by
  induction ks generalizing as with
  | nil => simp [eq_comm]
  | cons k ks ih => simp [bind_eq_ok_iff, decodeArg_ok_iff, ih, List.forall₂_cons_left_iff, eq_comm (a := as)]

theorem forall₂_range_length_iff {α : Type} {R : Nat → α → Prop} {l : List α} :
    List.Forall₂ R (List.range l.length) l ↔ ∀ k a, l[k]? = some a → R k a := by
  simp [List.forall₂_iff_get, List.getElem?_eq_some_iff]

theorem decodeArgs_congr {fetch fetch' : Nat → Option Word} {w w' : Word} {ks : List Nat}
    (h : ∀ k ∈ ks, decodeArg fetch w k = decodeArg fetch' w' k) : decodeArgs fetch w ks = decodeArgs fetch' w' ks := by
  induction ks with
  | nil => rfl
  | cons k ks ih =>
    rw [List.forall_mem_cons] at h
    rw [decodeArgs_cons, decodeArgs_cons, h.1, ih h.2]

/-! ## The first failing test (R60) -/

theorem mem_of_firstCause {l : List (Bool × Cause)} {c : Cause} (h : firstCause l = some c) : (true, c) ∈ l := by
  induction l with
  | nil => cases h
  | cons t rest ih =>
    obtain ⟨_ | _, c'⟩ := t
    · exact .tail _ (ih h)
    · cases h
      exact .head _

/-- The two tests of one argument. -/
def placeTests (fetch : Nat → Option Word) (w : Word) (k : Nat) : List (Bool × Cause) :=
  [(decide (2 ≤ digit w.toNat (k + 2)), .invalidMode), ((fetch (1 + k)).isNone, .outOfBounds)]

theorem argumentTests_eq (fetch : Nat → Option Word) (w : Word) (n : Nat) :
    argumentTests fetch w n = (List.range n).flatMap (placeTests fetch w) := rfl

theorem digit_le_one (m : Mode) : m.digit ≤ 1 := by cases m <;> decide

/-- The loop stops with the first failing test of its places, argument by argument. -/
theorem decodeArgs_error_iff {fetch : Nat → Option Word} {w : Word} {ks : List Nat} {c : Cause} :
    decodeArgs fetch w ks = .error c ↔ firstCause (ks.flatMap (placeTests fetch w)) = some c := by
  induction ks with
  | nil => simp [firstCause]
  | cons k ks ih =>
    rw [decodeArgs_cons]
    rcases decodeArg_cases fetch w k with ⟨hd, he⟩ | ⟨hd, hf, he⟩ | ⟨raw, mode, hd, hf, he⟩
    · simp [he, placeTests, firstCause, hd]
    · simp [he, placeTests, firstCause, Nat.not_le.2 (Nat.lt_succ_of_le hd), hf]
    · have hgood : ¬ 2 ≤ digit w.toNat (k + 2) := by
        have := digit_le_one mode
        omega
      simp [he, placeTests, firstCause, hgood, hf, bind_eq_error_iff, ih]

/-! ## The decoder as the word, the opcode and the loop -/

theorem decode_of_no_word {fetch : Nat → Option Word} (h : fetch 0 = none) : decode fetch = .error .outOfBounds := by
  simp only [decode, h]

theorem decode_of_no_op {fetch : Nat → Option Word} {w : Word} (h : fetch 0 = some w) (hop : opOfWord w = none) :
    decode fetch = .error .invalidOpcode := by
  simp only [decode, h, hop]

theorem decodeF1_term {fetch : Nat → Option Word} {w : Word} {op : Op} {mk : Arg → Instr}
    (hmk : ∀ a0, (mk a0).term = ⟨op, [a0]⟩) :
    Instr.term <$> decodeF1 fetch w mk = Term.mk op <$> decodeArgs fetch w (List.range 1) := by
  simp [decodeF1, List.range_succ, hmk]

theorem decodeF2_term {fetch : Nat → Option Word} {w : Word} {op : Op} {mk : Arg → Arg → Instr}
    (hmk : ∀ a0 a1, (mk a0 a1).term = ⟨op, [a0, a1]⟩) :
    Instr.term <$> decodeF2 fetch w mk = Term.mk op <$> decodeArgs fetch w (List.range 2) := by
  simp [decodeF2, List.range_succ, hmk]

theorem decodeF3_term {fetch : Nat → Option Word} {w : Word} {op : Op} {mk : Arg → Arg → Arg → Instr}
    (hmk : ∀ a0 a1 a2, (mk a0 a1 a2).term = ⟨op, [a0, a1, a2]⟩) :
    Instr.term <$> decodeF3 fetch w mk = Term.mk op <$> decodeArgs fetch w (List.range 3) := by
  simp [decodeF3, List.range_succ, hmk]

/-- Once the operation is known, decoding is the loop over its argument places (R58). -/
theorem decode_term {fetch : Nat → Option Word} {w : Word} {op : Op} (h : fetch 0 = some w)
    (hop : opOfWord w = some op) :
    Instr.term <$> decode fetch = Term.mk op <$> decodeArgs fetch w (List.range op.argc) := by
  cases op <;> simp only [decode, h, hop]
  case add | multiply | lessThan | equals => exact decodeF3_term fun _ _ _ => rfl
  case read | write => exact decodeF1_term fun _ => rfl
  case jumpIfTrue | jumpIfFalse => exact decodeF2_term fun _ _ => rfl
  case halt => rfl

theorem decode_error_iff {fetch : Nat → Option Word} {w : Word} {op : Op} {c : Cause} (h : fetch 0 = some w)
    (hop : opOfWord w = some op) :
    decode fetch = .error c ↔ decodeArgs fetch w (List.range op.argc) = .error c := by
  rw [← map_eq_error_iff (f := Instr.term), decode_term h hop, map_eq_error_iff]

theorem decode_ok_iff_of_op {fetch : Nat → Option Word} {w : Word} {op : Op} {i : Instr} (h : fetch 0 = some w)
    (hop : opOfWord w = some op) :
    decode fetch = .ok i ↔ op = i.op ∧ decodeArgs fetch w (List.range op.argc) = .ok i.args :=
  calc
    decode fetch = .ok i ↔ Instr.term <$> decode fetch = .ok i.term := by
      simp [map_eq_ok_iff, term_injective.eq_iff]
    _ ↔ Term.mk op <$> decodeArgs fetch w (List.range op.argc) = .ok ⟨i.op, i.args⟩ := by
      rw [decode_term h hop, Instr.term]
    _ ↔ op = i.op ∧ decodeArgs fetch w (List.range op.argc) = .ok i.args := by
      simp [map_eq_ok_iff, and_comm]

/-- What an instruction's cells must hold for it to decode from them, and nothing else matters (R46, R48, R52, R64). -/
theorem decode_ok_iff {fetch : Nat → Option Word} {i : Instr} :
    decode fetch = .ok i ↔ ∃ w, fetch 0 = some w ∧ opOfWord w = some i.op ∧
      ∀ k a, i.args[k]? = some a → ArgAt fetch w k a := by
  simp only [← forall₂_range_length_iff, args_length, ← decodeArgs_ok_iff]
  constructor
  · intro hd
    cases h : fetch 0 with
    | none => cases (decode_of_no_word h).symm.trans hd
    | some w =>
      cases hop : opOfWord w with
      | none => cases (decode_of_no_op h hop).symm.trans hd
      | some op =>
        obtain ⟨rfl, hargs⟩ := (decode_ok_iff_of_op h hop).1 hd
        exact ⟨w, rfl, hop, hargs⟩
  · rintro ⟨w, h, hop, hargs⟩
    exact (decode_ok_iff_of_op h hop).2 ⟨rfl, hargs⟩

/-! ## Decoding what was encoded -/

theorem encode_argument_cell {i : Instr} {k : Nat} {a : Arg} (rest : List Word) (h : i.args[k]? = some a) :
    (encode i ++ rest)[1 + k]? = some a.raw := by
  obtain ⟨hlt, ha⟩ := List.getElem?_eq_some_iff.1 h
  simp [encode, Nat.add_comm 1 k, List.getElem?_append, ha, hlt]

/-- Settles O2: the fields of the encoded word and the cells after it are what decoding to the instruction asks for. -/
theorem decodeOfEncodeIsTheInstruction : Obligations.DecodeOfEncodeIsTheInstruction := by
  intro i rest
  obtain ⟨hnonneg, hcode, hmodes⟩ := wordFields i
  have hop : opOfWord (encodeWord i) = some i.op := by
    have hnat := toNat_of_nonneg hnonneg
    exact opOfWord_eq_some_iff.2 ⟨hnonneg, by omega⟩
  exact decode_ok_iff.2 ⟨encodeWord i, rfl, hop, fun k a hk => ⟨encode_argument_cell rest hk, hmodes k a hk⟩⟩

/-! ## What decoding depends on -/

/-- Settles O8: `decode_ok_iff` mentions the cells of the instruction only. -/
theorem decodeDependsOnlyOnTheInstructionsCells : Obligations.DecodeDependsOnlyOnTheInstructionsCells := by
  intro fetch fetch' i hd
  obtain ⟨w, h0, hop, hargs⟩ := decode_ok_iff.1 hd
  constructor
  · intro k hk
    rcases k with _ | k
    · simp [h0]
    · have hlt : k < i.args.length := by
        unfold Instr.length at hk
        rw [args_length]
        omega
      have hcell := (hargs k _ (List.getElem?_eq_getElem hlt)).1
      rw [Nat.add_comm k 1, hcell, Option.isSome_some]
  · intro hsame
    refine decode_ok_iff.2 ⟨w, ?_, hop, fun k a hk => ?_⟩
    · rw [hsame 0 (by simp [Instr.length]), h0]
    · obtain ⟨hcell, hmode⟩ := hargs k a hk
      have hlt : k < i.args.length := (List.getElem?_eq_some_iff.1 hk).1
      rw [args_length] at hlt
      exact ⟨(hsame (1 + k) (Nat.add_lt_add_left hlt 1)).trans hcell, hmode⟩

theorem digit_mod {v k n : Nat} (h : k < n) : digit (v % 10 ^ n) k = digit v k := by
  obtain ⟨m, rfl⟩ := Nat.exists_eq_add_of_lt h
  unfold digit
  rw [Nat.add_assoc, Nat.pow_add, Nat.mod_mul_right_div_self, Nat.mod_mod_of_dvd _ (dvd_pow_self 10 m.succ_ne_zero)]

theorem digit_eq_of_emod_eq {w w' : Word} {k n : Nat} (hw : 0 ≤ w.toInt) (hw' : 0 ≤ w'.toInt)
    (h : w.toInt % 10 ^ n = w'.toInt % 10 ^ n) (hk : k < n) : digit w.toNat k = digit w'.toNat k := by
  rw [← toNat_of_nonneg hw, ← toNat_of_nonneg hw'] at h
  have hnat : w.toNat % 10 ^ n = w'.toNat % 10 ^ n := by exact_mod_cast h
  rw [← digit_mod hk, hnat, digit_mod hk]

theorem decodeArg_congr {fetch fetch' : Nat → Option Word} {w w' : Word} {k : Nat} (hf : fetch (1 + k) = fetch' (1 + k))
    (hd : digit w.toNat (k + 2) = digit w'.toNat (k + 2)) : decodeArg fetch w k = decodeArg fetch' w' k := by
  rw [decodeArg, decodeArg, hf, hd]

theorem term_map_injective {x y : Except Cause Instr} (h : Instr.term <$> x = Instr.term <$> y) : x = y := by
  match x, y with
  | .ok _, .ok _ => exact congrArg _ (term_injective (Except.ok.inj h))
  | .error _, .error _ => exact congrArg _ (Except.error.inj h)
  | .ok _, .error _ => cases h
  | .error _, .ok _ => cases h

/-- Settles O6: the opcode and every digit the loop examines lie below weight `10^(argc+2)`. -/
theorem unexaminedDigitsHaveNoEffect : Obligations.UnexaminedDigitsHaveNoEffect := by
  intro fetch fetch' w w' op h0 h0' hcells hw hw' hcode hlow
  have hcode' : w'.toInt % 100 = op.code := by
    have hdvd : (100 : Int) ∣ 10 ^ (op.argc + 2) := Dvd.intro_left (10 ^ op.argc) (by rw [pow_add]; rfl)
    rw [← hcode, ← Int.emod_emod_of_dvd w.toInt hdvd, hlow, Int.emod_emod_of_dvd _ hdvd]
  have hargs : decodeArgs fetch w (List.range op.argc) = decodeArgs fetch' w' (List.range op.argc) := by
    refine decodeArgs_congr fun k hk => decodeArg_congr (hcells (1 + k) (Nat.le_add_right 1 k)) ?_
    exact digit_eq_of_emod_eq hw hw' hlow (Nat.add_lt_add_right (List.mem_range.1 hk) 2)
  apply term_map_injective
  rw [decode_term h0 (opOfWord_eq_some_iff.2 ⟨hw, hcode⟩), decode_term h0' (opOfWord_eq_some_iff.2 ⟨hw', hcode'⟩), hargs]

/-! ## Which cause is reported, and when -/

/-- The number of arguments as the statement of the tests reads it off the opcode (R50, R51). -/
theorem argc_of_code (op : Op) :
    (if (op.code : Int) = 99 then 0 else if (op.code : Int) = 3 ∨ (op.code : Int) = 4 then 1
      else if (op.code : Int) = 5 ∨ (op.code : Int) = 6 then 2 else 3) = op.argc := by
  cases op <;> rfl

theorem firstCause_decoderTests_of_op {fetch : Nat → Option Word} {w : Word} {op : Op} (h : fetch 0 = some w)
    (hop : opOfWord w = some op) :
    firstCause (decoderTests fetch) = firstCause (argumentTests fetch w op.argc) := by
  have hpass : ¬ (w.toInt < 0 ∨ w.toInt % 100 ∉ ([1, 2, 3, 4, 5, 6, 7, 8, 99] : List Int)) := by
    rw [← opOfWord_eq_none_iff, hop]
    nofun
  have hcode := (opOfWord_eq_some_iff.1 hop).2
  simp only [decoderTests, h, firstCause, decide_eq_false hpass, Bool.false_eq_true, if_false]
  simp only [hcode, argc_of_code]

/-- Settles O5: the word's address and the opcode first, then the loop's own first failing test. -/
theorem decoderReportsItsFirstFailingTest : Obligations.DecoderReportsItsFirstFailingTest := by
  intro fetch c
  cases h : fetch 0 with
  | none => simp [decode_of_no_word h, decoderTests, h, firstCause]
  | some w =>
    cases hop : opOfWord w with
    | none =>
      have hfail := decide_eq_true (opOfWord_eq_none_iff.1 hop)
      simp only [decode_of_no_op h hop, decoderTests, h, hfail, firstCause, if_true, Except.error.injEq, Option.some.injEq]
    | some op =>
      rw [decode_error_iff h hop, decodeArgs_error_iff, firstCause_decoderTests_of_op h hop, argumentTests_eq]

section ClassesOfWords

variable {fetch : Nat → Option Word} {w : Word} {op : Op}

/-- A decode failure once the operation is known is a bad mode digit or a missing cell of one of its arguments. -/
theorem decode_error_cases {c : Cause} (h : fetch 0 = some w) (hop : opOfWord w = some op)
    (hd : decode fetch = .error c) :
    ∃ k < op.argc, 2 ≤ digit w.toNat (k + 2) ∧ c = .invalidMode ∨ fetch (1 + k) = none ∧ c = .outOfBounds := by
  have hmem := mem_of_firstCause (decodeArgs_error_iff.1 ((decode_error_iff h hop).1 hd))
  obtain ⟨k, hk, htest⟩ := List.mem_flatMap.1 hmem
  exact ⟨k, List.mem_range.1 hk, by simpa [placeTests] using htest⟩

/-- What decodes has the word's operation, and an argument in each of its places. -/
theorem decode_ok_cases {i : Instr} (h : fetch 0 = some w) (hop : opOfWord w = some op) (hd : decode fetch = .ok i) :
    i.op = op ∧ ∀ k < op.argc, ∃ a, i.args[k]? = some a ∧ ArgAt fetch w k a := by
  obtain ⟨w', h', hop', hargs⟩ := decode_ok_iff.1 hd
  cases h.symm.trans h'
  cases hop.symm.trans hop'
  refine ⟨rfl, fun k hk => ?_⟩
  rw [← args_length] at hk
  exact ⟨i.args[k], List.getElem?_eq_getElem hk, hargs k _ (List.getElem?_eq_getElem hk)⟩

theorem decode_of_bad_mode (h : fetch 0 = some w) (hop : opOfWord w = some op)
    (hcells : ∀ k < op.argc, fetch (1 + k) ≠ none) (hbad : ∃ k < op.argc, 2 ≤ digit w.toNat (k + 2)) :
    decode fetch = .error .invalidMode := by
  cases hd : decode fetch with
  | error c =>
    obtain ⟨k, hk, ⟨-, rfl⟩ | ⟨hnone, -⟩⟩ := decode_error_cases h hop hd
    · rfl
    · exact absurd hnone (hcells k hk)
  | ok i =>
    obtain ⟨k, hk, htwo⟩ := hbad
    obtain ⟨a, -, -, hmode⟩ := (decode_ok_cases h hop hd).2 k hk
    have hone := digit_le_one a.mode
    omega

theorem decode_of_good_modes (h : fetch 0 = some w) (hop : opOfWord w = some op)
    (hcells : ∀ k < op.argc, fetch (1 + k) ≠ none) (hgood : ∀ k < op.argc, digit w.toNat (k + 2) ≤ 1) :
    ∃ i, decode fetch = .ok i := by
  cases hd : decode fetch with
  | error c =>
    obtain ⟨k, hk, ⟨htwo, -⟩ | ⟨hnone, -⟩⟩ := decode_error_cases h hop hd
    · have hone := hgood k hk
      omega
    · exact absurd hnone (hcells k hk)
  | ok i => exact ⟨i, rfl⟩

end ClassesOfWords

/-- Settles O4: with the cells present only the opcode and the mode digits can fail. -/
theorem wordClassesDecideTheOutcome : Obligations.WordClassesDecideTheOutcome := by
  intro fetch w r0 r1 r2 h0 h1 h2 h3
  have hcells (op : Op) : ∀ k < op.argc, fetch (1 + k) ≠ none := by
    intro k hk
    have hk3 : k < 3 := Nat.lt_of_lt_of_le hk (argc_le_three op)
    interval_cases k <;> simp [h1, h2, h3]
  refine ⟨fun hneg => ?_, fun _ hno => ?_, fun op hw hcode hbad => ?_, fun op hw hcode hgood => ?_⟩
  · exact decode_of_no_op h0 (opOfWord_eq_none_iff.2 (.inl hneg))
  · exact decode_of_no_op h0 (opOfWord_eq_none_iff.2 (.inr hno))
  · exact decode_of_bad_mode h0 (opOfWord_eq_some_iff.2 ⟨hw, hcode⟩) (hcells op) hbad
  · have hop := opOfWord_eq_some_iff.2 ⟨hw, hcode⟩
    obtain ⟨i, hd⟩ := decode_of_good_modes h0 hop (hcells op) hgood
    obtain ⟨rfl, hargs⟩ := decode_ok_cases h0 hop hd
    refine ⟨i, hd, rfl, args_length i, fun k hk => ?_⟩
    obtain ⟨a, ha, hcell, hmode⟩ := hargs k hk
    exact ⟨a, ha, hcell, hmode.symm⟩

/-! ## The canonical words (R66) -/

/-- A three-argument operation with its two value modes in the order of R66 and its destination's digit 0. -/
def canonicalF3 (mk : Arg → Arg → Arg → Instr) : List Instr :=
  [mk ⟨0, .position⟩ ⟨0, .position⟩ ⟨0, .position⟩, mk ⟨0, .immediate⟩ ⟨0, .position⟩ ⟨0, .position⟩,
    mk ⟨0, .position⟩ ⟨0, .immediate⟩ ⟨0, .position⟩, mk ⟨0, .immediate⟩ ⟨0, .immediate⟩ ⟨0, .position⟩]

/-- A two-argument operation with its modes in the order of R66. -/
def canonicalF2 (mk : Arg → Arg → Instr) : List Instr :=
  [mk ⟨0, .position⟩ ⟨0, .position⟩, mk ⟨0, .immediate⟩ ⟨0, .position⟩, mk ⟨0, .position⟩ ⟨0, .immediate⟩,
    mk ⟨0, .immediate⟩ ⟨0, .immediate⟩]

/-- The canonical instructions of an operation with every raw value 0. -/
def canonicalOf : Op → List Instr
  | .add => canonicalF3 .add
  | .multiply => canonicalF3 .multiply
  | .read => [.read ⟨0, .position⟩]
  | .write => [.write ⟨0, .position⟩, .write ⟨0, .immediate⟩]
  | .jumpIfTrue => canonicalF2 .jumpIfTrue
  | .jumpIfFalse => canonicalF2 .jumpIfFalse
  | .lessThan => canonicalF3 .lessThan
  | .equals => canonicalF3 .equals
  | .halt => [.halt]

/-- The canonical instructions with every raw value 0, in the order of R66. -/
def canonicalInstrs : List Instr :=
  [Op.add, .multiply, .read, .write, .jumpIfTrue, .jumpIfFalse, .lessThan, .equals, .halt].flatMap canonicalOf

theorem canonicalInstrs_words : canonicalInstrs.map (fun i => (encodeWord i).toInt) = canonicalWords := by decide

theorem canonical_of_mem_canonicalInstrs : ∀ i ∈ canonicalInstrs, i.canonical = true := by decide

/-- The instruction with the same operation and modes and every raw value 0. -/
def Instr.zeroRaw : Instr → Instr
  | .add a0 a1 a2 => .add ⟨0, a0.mode⟩ ⟨0, a1.mode⟩ ⟨0, a2.mode⟩
  | .multiply a0 a1 a2 => .multiply ⟨0, a0.mode⟩ ⟨0, a1.mode⟩ ⟨0, a2.mode⟩
  | .read a0 => .read ⟨0, a0.mode⟩
  | .write a0 => .write ⟨0, a0.mode⟩
  | .jumpIfTrue a0 a1 => .jumpIfTrue ⟨0, a0.mode⟩ ⟨0, a1.mode⟩
  | .jumpIfFalse a0 a1 => .jumpIfFalse ⟨0, a0.mode⟩ ⟨0, a1.mode⟩
  | .lessThan a0 a1 a2 => .lessThan ⟨0, a0.mode⟩ ⟨0, a1.mode⟩ ⟨0, a2.mode⟩
  | .equals a0 a1 a2 => .equals ⟨0, a0.mode⟩ ⟨0, a1.mode⟩ ⟨0, a2.mode⟩
  | .halt => .halt

/-- Raw values have no part in the instruction word. -/
theorem encodeWord_zeroRaw (i : Instr) : encodeWord i.zeroRaw = encodeWord i := by cases i <;> rfl

theorem mem_canonicalF3 (mk : Arg → Arg → Arg → Instr) (m0 m1 : Mode) {m2 : Mode} (h : (m2 == .position) = true) :
    mk ⟨0, m0⟩ ⟨0, m1⟩ ⟨0, m2⟩ ∈ canonicalF3 mk := by
  cases eq_of_beq h
  cases m0 <;> cases m1 <;> simp [canonicalF3]

theorem mem_canonicalF2 (mk : Arg → Arg → Instr) (m0 m1 : Mode) : mk ⟨0, m0⟩ ⟨0, m1⟩ ∈ canonicalF2 mk := by
  cases m0 <;> cases m1 <;> simp [canonicalF2]

theorem zeroRaw_mem_canonicalOf {i : Instr} (h : i.canonical = true) : i.zeroRaw ∈ canonicalOf i.op := by
  cases i with
  | add a0 a1 a2 => exact mem_canonicalF3 _ _ _ h
  | multiply a0 a1 a2 => exact mem_canonicalF3 _ _ _ h
  | read a0 => exact List.mem_singleton.2 (congrArg (fun m => Instr.read ⟨0, m⟩) (eq_of_beq h))
  | write a0 =>
    obtain ⟨_, _ | _⟩ := a0
    · exact .head _
    · exact .tail _ (.head _)
  | jumpIfTrue a0 a1 => exact mem_canonicalF2 _ _ _
  | jumpIfFalse a0 a1 => exact mem_canonicalF2 _ _ _
  | lessThan a0 a1 a2 => exact mem_canonicalF3 _ _ _ h
  | equals a0 a1 a2 => exact mem_canonicalF3 _ _ _ h
  | halt => exact .head _

theorem zeroRaw_mem_canonicalInstrs {i : Instr} (h : i.canonical = true) : i.zeroRaw ∈ canonicalInstrs :=
  List.mem_flatMap.2 ⟨i.op, by cases i.op <;> decide, zeroRaw_mem_canonicalOf h⟩

/-- Settles O3: an instruction's word is that of its copy with raw values 0, and the canonical ones of these are the 28. -/
theorem canonicalWordsAreTheListed : Obligations.CanonicalWordsAreTheListed := by
  unfold Obligations.CanonicalWordsAreTheListed
  rw [← canonicalInstrs_words]
  constructor
  · intro i hi
    exact List.mem_map.2 ⟨i.zeroRaw, zeroRaw_mem_canonicalInstrs hi, by rw [encodeWord_zeroRaw]⟩
  · intro W hW
    obtain ⟨i, hi, rfl⟩ := List.mem_map.1 hW
    exact ⟨i, canonical_of_mem_canonicalInstrs i hi, rfl⟩

/-! ## The mode of a destination (R55) -/

theorem threeOperand_of_dst_eq {op : Op} {f : Word → Word → Except Cause Word} {a0 a1 d d' : Arg} {s : State}
    (h : dst d = dst d') : threeOperand op f a0 a1 d s = threeOperand op f a0 a1 d' s := by
  rw [threeOperand, threeOperand, h]

theorem execRead_of_dst_eq {d d' : Arg} {s : State} (h : dst d = dst d') : execRead d s = execRead d' s := by
  rw [execRead, execRead, h]

/-- Settles O7: a destination reaches execution through `dst` alone, which is its raw value. -/
theorem destinationModeHasNoEffect : Obligations.DestinationModeHasNoEffect := by
  intro a0 a1 raw m m' s
  have hdst : dst ⟨raw, m⟩ = dst ⟨raw, m'⟩ := rfl
  exact ⟨threeOperand_of_dst_eq hdst, threeOperand_of_dst_eq hdst, execRead_of_dst_eq hdst, threeOperand_of_dst_eq hdst,
    threeOperand_of_dst_eq hdst⟩

end Sys2Proof
end

section
/-! The statements of spec/40_channels.md: the channel operations, successive reads, the host's moves. -/

namespace Sys2Proof.Machine

/-! ## One read or write of a channel (R71 to R73) -/

theorem canRead_iff (ch : Channel) : ch.canRead = true ↔ ch.cur < ch.items.length := decide_eq_true_iff

theorem canRead_eq_false_iff (ch : Channel) : ch.canRead = false ↔ ch.items.length ≤ ch.cur := by
  rw [← Bool.not_eq_true, canRead_iff, Nat.not_lt]

theorem channelWf_iff (ch : Channel) : ch.wf = true ↔ ch.cur ≤ ch.items.length := decide_eq_true_iff

theorem channelRead_of_getElem? {ch : Channel} {v : Word} (h : ch.items[ch.cur]? = some v) :
    ch.read = .ok (v, ⟨ch.items, ch.cur + 1⟩) := by
  rw [Channel.read, h]

theorem channelRead_of_canRead_false {ch : Channel} (h : ch.canRead = false) : ch.read = .error .exhausted := by
  rcases channelRead_cases ch with ⟨hcan, -⟩ | ⟨-, hread⟩
  · cases h.symm.trans hcan
  · exact hread

/-- Settles O39: each clause is one of the rules above; an empty channel's cursor is never below its end. -/
theorem channelReadFollowsItsRules : Obligations.ChannelReadFollowsItsRules := by
  intro ch
  refine ⟨canRead_iff ch, fun hempty => ?_, fun _ => channelRead_of_getElem?, channelRead_of_canRead_false⟩
  rw [canRead_eq_false_iff, hempty]
  exact Nat.zero_le _

/-! ## Successive reads and writes (R74) -/

theorem drain_succ_of_read {ch rest : Channel} {v : Word} (k : Nat) (h : ch.read = .ok (v, rest)) :
    Channel.drain (k + 1) ch = (Channel.drain k rest).map fun q => (v :: q.1, q.2) := by
  rw [Channel.drain, h]
  cases hd : Channel.drain k rest <;> simp [hd]

theorem drain_succ_of_exhausted {ch : Channel} {e : ChannelError} (k : Nat) (h : ch.read = .error e) :
    Channel.drain (k + 1) ch = none := by
  rw [Channel.drain, h]

/-- Where enough elements are left, `k` reads return the next `k` of them and move the cursor past these. -/
theorem drain_of_le {ch : Channel} {k : Nat} (h : ch.cur + k ≤ ch.items.length) :
    Channel.drain k ch = some ((ch.items.drop ch.cur).take k, ⟨ch.items, ch.cur + k⟩) := by
  induction k generalizing ch with
  | zero => rfl
  | succ k ih =>
    have hlt : ch.cur < ch.items.length := by omega
    have hrest : Channel.drain k ⟨ch.items, ch.cur + 1⟩ =
        some ((ch.items.drop (ch.cur + 1)).take k, ⟨ch.items, ch.cur + 1 + k⟩) := ih (by simp only; omega)
    rw [drain_succ_of_read k (channelRead_of_getElem? (List.getElem?_eq_getElem hlt)), hrest,
      List.drop_eq_getElem_cons hlt, List.take_succ_cons, Nat.add_right_comm, Nat.add_assoc]
    rfl

/-- More reads than there are elements left never all succeed. -/
theorem drain_of_lt {ch : Channel} {k : Nat} (hwf : ch.wf = true) (h : ch.items.length < ch.cur + k) :
    Channel.drain k ch = none := by
  induction k generalizing ch with
  | zero => exact absurd ((channelWf_iff ch).1 hwf) (Nat.not_le.2 h)
  | succ k ih =>
    rcases channelRead_cases ch with ⟨hcan, v, -, hread⟩ | ⟨-, hread⟩
    · have hwf' : Channel.wf ⟨ch.items, ch.cur + 1⟩ = true := (channelWf_iff _).2 ((canRead_iff ch).1 hcan)
      have hrest : Channel.drain k ⟨ch.items, ch.cur + 1⟩ = none := ih hwf' (by simp only; omega)
      rw [drain_succ_of_read k hread, hrest, Option.map_none]
    · exact drain_succ_of_exhausted k hread

/-- Successive writes append their values in order and leave the cursor. -/
theorem foldl_write (ch : Channel) (vs : List Word) : vs.foldl Channel.write ch = ⟨ch.items ++ vs, ch.cur⟩ := by
  induction vs generalizing ch with
  | nil => simp
  | cons v vs ih => simp [ih, Channel.write]

/-- What is written where nothing was left unread is read back in order, and can be read on until all of it is. -/
theorem drain_foldl_write {ch : Channel} {vs : List Word} {k : Nat} (hcur : ch.cur = ch.items.length)
    (hk : k ≤ vs.length) :
    Channel.drain k (vs.foldl Channel.write ch) = some (vs.take k, ⟨ch.items ++ vs, ch.cur + k⟩) := by
  rw [foldl_write, drain_of_le (by simp only [List.length_append]; omega)]
  simp only [hcur, List.drop_left]

theorem canRead_write_of_wf {ch : Channel} (v : Word) (hwf : ch.wf = true) : (ch.write v).canRead = true := by
  rw [canRead_iff, Channel.write, List.length_append]
  exact Nat.lt_succ_of_le ((channelWf_iff ch).1 hwf)

/-- Settles O40: `drain_of_le` and `drain_of_lt` say what `k` reads give, and writes only lengthen the items. -/
theorem channelDeliversInOrderExactlyOnce : Obligations.ChannelDeliversInOrderExactlyOnce := by
  refine ⟨fun ch k hwf => ⟨drain_of_le, drain_of_lt hwf⟩, fun ch vs hcur k hk => ?_,
    fun ch v hwf _ => canRead_write_of_wf v hwf⟩
  refine ⟨_, drain_foldl_write hcur hk, rfl, rfl, ?_⟩
  rw [canRead_iff, List.length_append, hcur, Nat.add_lt_add_iff_left]

/-! ## The host's moves on channels (R76, R135, R137) -/

section HostMoves

variable {s : State}

theorem supplyInput_of_ready {ch : Channel} (v : Word) (hs : s.status = .ready) (hi : s.input = some ch) :
    supplyInput v s = .next (s.setInput (ch.write v)) := by
  rw [supplyInput, hs, hi]

theorem supplyInput_of_unbound (v : Word) (hs : s.status = .ready) (hi : s.input = none) :
    supplyInput v s = .refused .noChannelBound := by
  rw [supplyInput, hs, hi]

theorem supplyInput_of_not_ready (v : Word) (hs : s.status ≠ .ready) :
    supplyInput v s = .refused .noSuchHostMove := by
  unfold supplyInput
  cases h : s.status with
  | ready => exact absurd h hs
  | running => rfl
  | halted => rfl
  | faulted => rfl

theorem collectOutput_of_not_ended (h : s.ended = false) : collectOutput s = .refused .noSuchHostMove := by
  rw [collectOutput, h]

theorem collectOutput_of_unbound (h : s.ended = true) (ho : s.output = none) :
    collectOutput s = .refused .noChannelBound := by
  rw [collectOutput, h, ho]

theorem collectedValue_of_not_ended (h : s.ended = false) : collectedValue s = none := by
  unfold collectedValue
  cases s.output with
  | none => rfl
  | some ch => simp [h]

theorem collectedValue_of_unbound (ho : s.output = none) : collectedValue s = none := by
  rw [collectedValue, ho]

theorem outputReadable_of_not_ended (h : s.ended = false) : outputReadable s = false := by
  unfold outputReadable
  cases s.output with
  | none => rfl
  | some ch => simp [h]

theorem outputReadable_of_unbound (ho : s.output = none) : outputReadable s = false := by
  rw [outputReadable, ho]

theorem inspectCell_of_not_ended (a : Int) (h : s.ended = false) : inspectCell a s = none := by
  simp [inspectCell, h]

theorem handOff_of_not_ended (later : State) (h : s.ended = false) :
    handOff s later = .refused .noSuchHostMove := by
  rw [handOff, h]

theorem handOff_of_unbound (later : State) (h : s.ended = true) (ho : s.output = none) :
    handOff s later = .refused .noChannelBound := by
  rw [handOff, h, ho]

end HostMoves

/-- Settles O47: each clause is one host operation at one moment, and those moments are the cases above. -/
theorem hostChannelMovesKeepToTheirMoments : Obligations.HostChannelMovesKeepToTheirMoments := by
  refine ⟨fun s v ch hs hi => ?_, fun s v => supplyInput_of_unbound v, fun s v => supplyInput_of_not_ready v,
    fun s later h => ?_, fun s later h ho => ?_⟩
  · exact ⟨_, supplyInput_of_ready v hs hi, rfl, rfl, rfl, rfl, rfl, rfl⟩
  · exact ⟨collectOutput_of_not_ended h, collectedValue_of_not_ended h, outputReadable_of_not_ended h,
      fun a => inspectCell_of_not_ended a h, handOff_of_not_ended later h⟩
  · exact ⟨collectOutput_of_unbound h ho, collectedValue_of_unbound ho, outputReadable_of_unbound ho,
      handOff_of_unbound later h ho⟩

end Sys2Proof.Machine
end

section
/-! The statements of spec/41_cycle.md: one cycle from fetch to execution, where it leaves `pc`, how cycles make up a run,
and what a run does not depend on. -/

namespace Sys2Proof.Machine

/-! ## Operands (R83, R84) -/

theorem val_immediate (s : State) (r : Word) : s.val ⟨r, .immediate⟩ = .ok r := rfl

theorem val_position (s : State) (r : Word) : s.val ⟨r, .position⟩ = s.mem.read r.toInt := rfl

/-- Settles O10: a Position argument is one checked read of memory, and an Immediate or destination argument none. -/
theorem argumentsResolveByRoleAndMode : Obligations.ArgumentsResolveByRoleAndMode := by
  intro s r
  refine ⟨val_immediate s r, fun v hv => ?_, fun hout => ?_, fun _ => rfl⟩
  · have hval : s.val ⟨r, .position⟩ = .ok v := (val_position s r).trans (read_ok_iff.2 hv)
    exact ⟨hval, hval.trans (val_immediate s v).symm⟩
  · exact (val_position s r).trans (read_of_not_inRange ((inRange_eq_false_iff _ _).2 hout))

/-! ## Fetch, decode, execute (R80 to R82, R88) -/

theorem fetch_eq (s : State) (k : Nat) : s.fetch k = s.mem.cell? (s.pc.toInt + k) := rfl

theorem step_of_decode {s : State} {i : Instr} (hs : s.status = .running) (hd : decode s.fetch = .ok i) :
    step s = exec i s := by
  simp only [step, hs, cycle, hd]

theorem step_of_decode_error {s : State} {c : Cause} (hs : s.status = .running) (hd : decode s.fetch = .error c) :
    step s = .next (s.takeFault c) := by
  simp only [step, hs, cycle, hd]

theorem step_ne_next {s : State} (hs : s.status ≠ .running) (t : State) : step s ≠ .next t :=
  fun h => hs (step_next h).1

theorem faultEntry_takeFault (c : Cause) (s : State) : FaultEntry c s (s.takeFault c) :=
  ⟨rfl, rfl, rfl, rfl, rfl, rfl⟩

/-- Settles O21: a running engine's step is its cycle, and the cells it decodes are those of memory from `pc` on. -/
theorem stepRunsTheDecodedInstruction : Obligations.StepRunsTheDecodedInstruction :=
  fun s _ hs hd => ⟨step_of_decode hs hd, fetch_eq s⟩

/-- Settles O23: the cycle's answer to a decode failure is the fault entry. -/
theorem decodeFailureIsFatalWithoutEffect : Obligations.DecodeFailureIsFatalWithoutEffect :=
  fun s c hs hd => ⟨s.takeFault c, step_of_decode_error hs hd, faultEntry_takeFault c s⟩

/-- Settles O24: with `pc` outside memory there is no instruction word, and the decoder's first test fails. -/
theorem fetchOutsideMemoryFaults : Obligations.FetchOutsideMemoryFaults := by
  refine ⟨fetch_eq, fun s hs hout => ?_⟩
  have hword : s.fetch 0 = none := by
    rw [fetch_eq, Nat.cast_zero, add_zero]
    exact cell_of_not_inRange ((inRange_eq_false_iff _ _).2 hout)
  exact decodeFailureIsFatalWithoutEffect s .outOfBounds hs (decode_of_no_word hword)

/-! ## Where `pc` goes (R85, R86) -/

theorem threeOperand_pc {op : Op} {f : Word → Word → Except Cause Word} {a0 a1 a2 : Arg} {s t : State}
    (h : threeOperand op f a0 a1 a2 s = .next t) (hf : t.status ≠ .faulted) : t.pc = (s.advance op).pc := by
  rcases threeOperand_cases op f a0 a1 a2 s with ⟨_, _, he⟩ | ⟨_, _, _, _, he⟩ | ⟨_, _, _, _, _, _, he⟩ |
      ⟨_, _, _, _, _, _, _, he⟩ | ⟨_, _, _, _, _, _, _, he⟩ <;> cases he.symm.trans h
  case inr.inr.inr.inr => rfl
  all_goals exact absurd rfl hf

theorem execRead_pc {a0 : Arg} {s t : State} (h : execRead a0 s = .next t) (hf : t.status ≠ .faulted) :
    t.pc = (s.advance .read).pc := by
  rcases execRead_cases a0 s with ⟨_, he⟩ | ⟨_, _, _, he⟩ | ⟨_, _, _, _, he⟩ | ⟨_, _, _, _, _, he⟩ <;>
    cases he.symm.trans h
  case inr.inr.inr => rfl
  all_goals exact absurd rfl hf

theorem execWrite_pc {a0 : Arg} {s t : State} (h : execWrite a0 s = .next t) (hf : t.status ≠ .faulted) :
    t.pc = (s.advance .write).pc := by
  rcases execWrite_cases a0 s with ⟨_, _, he⟩ | ⟨_, _, _, he⟩ | ⟨_, _, _, _, he⟩ <;> cases he.symm.trans h
  case inr.inr => rfl
  all_goals exact absurd rfl hf

section Jumps

variable {op : Op} {taken : Word → Bool} {a0 a1 : Arg} {s t : State}

theorem jumpWhen_pc_of_taken (h : jumpWhen op taken a0 a1 s = .next t) (hf : t.status ≠ .faulted)
    (hc : ∃ c, s.val a0 = .ok c ∧ taken c = true) : s.val a1 = .ok t.pc := by
  obtain ⟨c, hval, htaken⟩ := hc
  rcases jumpWhen_cases op taken a0 a1 s with ⟨_, _, he⟩ | ⟨x, hx, hnot, _⟩ | ⟨_, _, _, _, _, he⟩ |
      ⟨_, target, _, _, ht, he⟩
  · cases he.symm.trans h
    exact absurd rfl hf
  · cases hval.symm.trans hx
    cases htaken.symm.trans hnot
  · cases he.symm.trans h
    exact absurd rfl hf
  · cases he.symm.trans h
    exact ht

theorem jumpWhen_pc_of_not_taken (h : jumpWhen op taken a0 a1 s = .next t) (hf : t.status ≠ .faulted)
    (hc : ¬ ∃ c, s.val a0 = .ok c ∧ taken c = true) : t.pc = (s.advance op).pc := by
  rcases jumpWhen_cases op taken a0 a1 s with ⟨_, _, he⟩ | ⟨_, _, _, he⟩ | ⟨x, _, hx, htaken, _, _⟩ |
      ⟨x, _, hx, htaken, _, _⟩
  · cases he.symm.trans h
    exact absurd rfl hf
  · cases he.symm.trans h
    rfl
  · exact absurd ⟨x, hx, htaken⟩ hc
  · exact absurd ⟨x, hx, htaken⟩ hc

end Jumps

theorem redirects_jumpIfTrue_iff {s : State} {a0 a1 a : Arg} :
    Redirects s (.jumpIfTrue a0 a1) a ↔ a1 = a ∧ ∃ c, s.val a0 = .ok c ∧ decide (c.toInt ≠ 0) = true := by
  simp only [Redirects, decide_eq_true_iff]

theorem redirects_jumpIfFalse_iff {s : State} {a0 a1 a : Arg} :
    Redirects s (.jumpIfFalse a0 a1) a ↔ a1 = a ∧ ∃ c, s.val a0 = .ok c ∧ decide (c.toInt = 0) = true := by
  simp only [Redirects, decide_eq_true_iff]

/-- Where an instruction that raises nothing leaves `pc`, as a word. -/
theorem exec_pc {i : Instr} {s t : State} (h : exec i s = .next t) (hf : t.status ≠ .faulted) :
    (i ≠ .halt → (∀ a, ¬ Redirects s i a) → t.pc = (s.advance i.op).pc) ∧
    (∀ a, Redirects s i a → s.val a = .ok t.pc) ∧
    (i = .halt → t.pc = s.pc) := by
  cases i with
  | add => exact ⟨fun _ _ => threeOperand_pc h hf, fun _ => False.elim, nofun⟩
  | multiply => exact ⟨fun _ _ => threeOperand_pc h hf, fun _ => False.elim, nofun⟩
  | read => exact ⟨fun _ _ => execRead_pc h hf, fun _ => False.elim, nofun⟩
  | write => exact ⟨fun _ _ => execWrite_pc h hf, fun _ => False.elim, nofun⟩
  | jumpIfTrue a0 a1 =>
    refine ⟨fun _ hno => ?_, fun a ha => ?_, nofun⟩
    · exact jumpWhen_pc_of_not_taken h hf fun hc => hno a1 (redirects_jumpIfTrue_iff.2 ⟨rfl, hc⟩)
    · obtain ⟨rfl, hc⟩ := redirects_jumpIfTrue_iff.1 ha
      exact jumpWhen_pc_of_taken h hf hc
  | jumpIfFalse a0 a1 =>
    refine ⟨fun _ hno => ?_, fun a ha => ?_, nofun⟩
    · exact jumpWhen_pc_of_not_taken h hf fun hc => hno a1 (redirects_jumpIfFalse_iff.2 ⟨rfl, hc⟩)
    · obtain ⟨rfl, hc⟩ := redirects_jumpIfFalse_iff.1 ha
      exact jumpWhen_pc_of_taken h hf hc
  | lessThan => exact ⟨fun _ _ => threeOperand_pc h hf, fun _ => False.elim, nofun⟩
  | equals => exact ⟨fun _ _ => threeOperand_pc h hf, fun _ => False.elim, nofun⟩
  | halt =>
    refine ⟨fun hne => absurd rfl hne, fun _ => False.elim, fun _ => ?_⟩
    cases (execHalt_eq s).symm.trans h
    rfl

theorem inRange_of_cell_isSome {m : Memory} {a : Int} (h : (m.cell? a).isSome = true) : 0 ≤ a ∧ a < m.len := by
  cases hin : m.inRange a with
  | true => exact (inRange_iff m a).1 hin
  | false =>
    rw [cell_of_not_inRange hin] at h
    cases h

/-- What was decoded at `pc` lies wholly in memory (R58). -/
theorem fitsAt_of_decode {s : State} {i : Instr} (hd : decode s.fetch = .ok i) :
    0 ≤ s.pc.toInt ∧ s.pc.toInt + i.op.argc + 1 ≤ s.mem.len := by
  have hcells := (decodeDependsOnlyOnTheInstructionsCells s.fetch s.fetch i hd).1
  have hfirst := inRange_of_cell_isSome (hcells 0 (by simp [Instr.length]))
  have hlast := inRange_of_cell_isSome (hcells i.op.argc (by simp [Instr.length]))
  omega

/-- The sequential advance does not wrap where its integer value is in range (R85; log 1). -/
theorem advance_pc_toInt {s : State} {op : Op} (h0 : 0 ≤ s.pc.toInt) (h : s.pc.toInt + op.argc + 1 ≤ Config.maxLen) :
    (s.advance op).pc.toInt = s.pc.toInt + op.argc + 1 := by
  have hargc := argc_le_three op
  have hmax : Config.maxLen = 2 ^ 63 - 1 := rfl
  have hn : (BitVec.ofNat 64 (op.argc + 1)).toInt = op.argc + 1 := by
    rw [BitVec.toInt_ofNat', Int.bmod_eq_of_le] <;> omega
  rw [advance_pc, BitVec.toInt_add, hn, Int.bmod_eq_of_le] <;> omega

/-- Settles O29: `exec_pc` says where `pc` goes as a word, and an advance past cells that lie in memory does not wrap. -/
theorem programCounterAdvancesOrRedirects : Obligations.ProgramCounterAdvancesOrRedirects := by
  intro s t i hinv hd h hf
  obtain ⟨hwf, -⟩ := hinv
  obtain ⟨hlen, -⟩ := (wf_iff s.mem).1 hwf
  obtain ⟨hpc, hfits⟩ := fitsAt_of_decode hd
  obtain ⟨hrunning, -⟩ := step_next h
  obtain ⟨hadvance, htaken, hhalt⟩ := exec_pc ((step_of_decode hrunning hd).symm.trans h) hf
  refine ⟨fun hne hno => ?_, htaken, hhalt⟩
  rw [hadvance hne hno, advance_pc_toInt hpc (by omega)]
  exact ⟨rfl, hfits⟩

/-! ## Runs (R87, R92) -/

theorem run_zero (s : State) : run 0 s = s := rfl

theorem run_succ_of_next (n : Nat) {s t : State} (h : step s = .next t) : run (n + 1) s = run n t := by
  rw [run, h]

theorem run_of_no_step (n : Nat) {s : State} (h : ∀ t, step s ≠ .next t) : run n s = s := by
  cases n with
  | zero => rfl
  | succ n =>
    rw [run]
    cases hs : step s with
    | next t => exact absurd hs (h t)
    | fault _ => rfl
    | refused _ => rfl

theorem run_add (n k : Nat) (s : State) : run (n + k) s = run k (run n s) := by
  induction n generalizing s with
  | zero => rw [Nat.zero_add, run_zero]
  | succ n ih =>
    by_cases h : ∃ t, step s = .next t
    · obtain ⟨t, ht⟩ := h
      rw [Nat.succ_add, run_succ_of_next _ ht, run_succ_of_next _ ht, ih]
    · have hstay : ∀ m, run m s = s := fun m => run_of_no_step m (not_exists.1 h)
      rw [hstay, hstay, hstay]

/-- Settles O38: the equations of `run`, and `run_add` for a run cut in two. -/
theorem runsCompose : Obligations.RunsCompose :=
  ⟨run_zero, fun n _ _ => run_succ_of_next n, fun n _ => run_of_no_step n, run_add⟩

/-! ## What the output channel held before (R93)

Read as functions of the channel `p` bound as output, what a cycle computes, a step and a run all have one form: one next
state and one list of values for every `p`, the values appended to `p`. -/

/-- The computation raises one cause, or ends in one state with the same values appended to `p`, whatever `p` is. -/
def AppendsAlike (r : Channel → Except Cause State) : Prop :=
  (∃ c, ∀ p, r p = .error c) ∨ ∃ (t : State) (vs : List Word), ∀ p, r p = .ok (t.setOutput (vs.foldl Channel.write p))

/-- The outcome is one next state with the same values appended to `p`, whatever `p` is. -/
def StepsAlike (o : Channel → Host.Outcome State Fault Refusal) : Prop :=
  ∃ (t : State) (vs : List Word), ∀ p, o p = .next (t.setOutput (vs.foldl Channel.write p))

theorem AppendsAlike.ok (t : State) (vs : List Word) :
    AppendsAlike fun p => .ok (t.setOutput (vs.foldl Channel.write p)) :=
  Or.inr ⟨t, vs, fun _ => rfl⟩

/-- A check that does not look at the output channel, and then a computation of this form. -/
theorem AppendsAlike.bind {α : Type} {f : Channel → α → Except Cause State} (x : Except Cause α)
    (h : ∀ a, AppendsAlike fun p => f p a) : AppendsAlike fun p => x >>= f p := by
  cases x with
  | error c => exact Or.inl ⟨c, fun _ => rfl⟩
  | ok a => exact h a

theorem AppendsAlike.settle {r : Channel → Except Cause State} (s : State) (h : AppendsAlike r) :
    StepsAlike fun p => (s.setOutput p).settle (r p) := by
  rcases h with ⟨c, hc⟩ | ⟨t, vs, ht⟩
  · exact ⟨s.takeFault c, [], fun p => congrArg (s.setOutput p).settle (hc p)⟩
  · exact ⟨t, vs, fun p => congrArg (s.setOutput p).settle (ht p)⟩

/-- A store as a checked write of memory and then an update of the state. -/
theorem store_eq_bind (s : State) (a v : Word) :
    s.store a v = s.mem.write a.toInt v >>= fun m => .ok (s.setMem m) := by
  unfold State.store
  cases s.mem.write a.toInt v <;> rfl

theorem threeOperand_stepsAlike (op : Op) (f : Word → Word → Except Cause Word) (a0 a1 a2 : Arg) (s : State) :
    StepsAlike fun p => threeOperand op f a0 a1 a2 (s.setOutput p) := by
  refine AppendsAlike.settle s ?_
  refine .bind (s.val a0) fun x => .bind (s.val a1) fun y => .bind (f x y) fun r => ?_
  simp only [store_eq_bind, bind_assoc]
  exact .bind (s.mem.write (dst a2).toInt r) fun m => .ok ((s.setMem m).advance op) []

theorem jumpWhen_stepsAlike (op : Op) (taken : Word → Bool) (a0 a1 : Arg) (s : State) :
    StepsAlike fun p => jumpWhen op taken a0 a1 (s.setOutput p) := by
  refine AppendsAlike.settle s (.bind (s.val a0) fun c => ?_)
  cases taken c with
  | true => exact .bind (s.val a1) fun t => .ok (s.setPc t) []
  | false => exact .ok (s.advance op) []

theorem execRead_stepsAlike (a0 : Arg) (s : State) : StepsAlike fun p => execRead a0 (s.setOutput p) := by
  refine AppendsAlike.settle s ?_
  refine .bind s.boundInput fun ch => .bind ch.next fun (v, rest) => ?_
  simp only [store_eq_bind, bind_assoc]
  exact .bind (s.mem.write (dst a0).toInt v) fun m => .ok (((s.setMem m).setInput rest).advance .read) []

theorem execWrite_stepsAlike (a0 : Arg) (s : State) : StepsAlike fun p => execWrite a0 (s.setOutput p) :=
  AppendsAlike.settle s (.bind (s.val a0) fun v => .ok (s.advance .write) [v])

theorem execHalt_stepsAlike (s : State) : StepsAlike fun p => execHalt (s.setOutput p) :=
  AppendsAlike.settle s (.ok (s.setStatus .halted) [])

theorem exec_stepsAlike (i : Instr) (s : State) : StepsAlike fun p => exec i (s.setOutput p) := by
  cases i with
  | add => apply threeOperand_stepsAlike
  | multiply => apply threeOperand_stepsAlike
  | read => apply execRead_stepsAlike
  | write => apply execWrite_stepsAlike
  | jumpIfTrue => apply jumpWhen_stepsAlike
  | jumpIfFalse => apply jumpWhen_stepsAlike
  | lessThan => apply threeOperand_stepsAlike
  | equals => apply threeOperand_stepsAlike
  | halt => apply execHalt_stepsAlike

/-- `STATUS` and the cells fetched at `pc` are the same whatever channel is bound, and so is the instruction decoded. -/
theorem step_stepsAlike {s : State} (hs : s.status = .running) : StepsAlike fun p => step (s.setOutput p) := by
  cases hd : decode s.fetch with
  | error c => exact ⟨s.takeFault c, [], fun p => step_of_decode_error (s := s.setOutput p) hs hd⟩
  | ok i =>
    obtain ⟨t, vs, ht⟩ := exec_stepsAlike i s
    exact ⟨t, vs, fun p => (step_of_decode (s := s.setOutput p) hs hd).trans (ht p)⟩

/-- The state a run comes to and the values it appends, for every channel bound as output. -/
theorem run_setOutput (n : Nat) (s : State) :
    ∃ (t : State) (vs : List Word), ∀ p, run n (s.setOutput p) = t.setOutput (vs.foldl Channel.write p) := by
  induction n generalizing s with
  | zero => exact ⟨s, [], fun _ => rfl⟩
  | succ n ih =>
    by_cases hs : s.status = .running
    · obtain ⟨t, vs, ht⟩ := step_stepsAlike hs
      obtain ⟨u, ws, hu⟩ := ih t
      exact ⟨u, vs ++ ws, fun p => by rw [run_succ_of_next n (ht p), hu, List.foldl_append]⟩
    · exact ⟨s, [], fun p => run_of_no_step _ (step_ne_next (s := s.setOutput p) hs)⟩

/-- Settles O36: by `run_setOutput` the two runs come to one state but for what they append to. -/
theorem outputHistoryDoesNotInfluenceTheRun : Obligations.OutputHistoryDoesNotInfluenceTheRun := by
  intro n s p q
  obtain ⟨t, vs, ht⟩ := run_setOutput n s
  refine ⟨vs, ?_⟩
  rw [ht p, ht q, foldl_write, foldl_write]
  exact ⟨rfl, rfl, rfl, rfl, rfl, rfl, rfl⟩

end Sys2Proof.Machine
end

section
/-! The statements of spec/42_arithmetic.md: Add and Multiply, as the three-operand cycle with a range-tested result. -/

namespace Sys2Proof.Machine

/-! ## Operands, results and stores -/

theorem val_of_unreadable {s : State} {arg : Arg} (h : Unreadable s arg) : s.val arg = .error .outOfBounds := by
  obtain ⟨raw, mode⟩ := arg
  obtain ⟨hmode, hout⟩ := h
  subst hmode
  exact (val_position s raw).trans (read_of_not_inRange hout)

theorem checkedResult_of_fits {v : Int} (hlo : -2 ^ 63 ≤ v) (hhi : v ≤ 2 ^ 63 - 1) :
    ∃ r, checkedResult v = .ok r ∧ r.toInt = v := by
  rcases checkedResult_cases v with ⟨_, _, hr⟩ | ⟨hout, _⟩
  · exact hr
  · omega

theorem checkedResult_of_overflow {v : Int} (h : v < -2 ^ 63 ∨ 2 ^ 63 - 1 < v) :
    checkedResult v = .error .arithmeticOverflow := by
  rcases checkedResult_cases v with ⟨hlo, hhi, _⟩ | ⟨_, he⟩
  · omega
  · exact he

theorem storedAt_of_mem_eq_put {s t : State} {a : Int} {r : Word} (hin : s.mem.inRange a = true)
    (hmem : t.mem = s.mem.put a r) : StoredAt a r.toInt s t := by
  unfold StoredAt
  rw [hmem]
  exact ⟨⟨r, put_cell_same r hin, rfl⟩, fun _ hne => put_cell_other r hin hne, put_len s.mem a r⟩

theorem raises_of_exec_takeFault {i : Instr} {s : State} {c : Cause} (h : exec i s = .next (s.takeFault c)) :
    Raises i s c :=
  ⟨_, h, faultEntry_takeFault c s⟩

/-! ## The three-operand cycle, one equation per outcome (R91, R114) -/

section ThreeOperand

variable {op : Op} {f : Word → Word → Except Cause Word} {a0 a1 a2 : Arg} {s : State} {x y r : Word} {c : Cause}

theorem threeOperand_of_left_error (h0 : s.val a0 = .error c) :
    threeOperand op f a0 a1 a2 s = .next (s.takeFault c) := by
  simp only [threeOperand, h0, bind_error, settle_error]

theorem threeOperand_of_right_error (h0 : s.val a0 = .ok x) (h1 : s.val a1 = .error c) :
    threeOperand op f a0 a1 a2 s = .next (s.takeFault c) := by
  simp only [threeOperand, h0, h1, bind_ok, bind_error, settle_error]

theorem threeOperand_of_result_error (h0 : s.val a0 = .ok x) (h1 : s.val a1 = .ok y) (hf : f x y = .error c) :
    threeOperand op f a0 a1 a2 s = .next (s.takeFault c) := by
  simp only [threeOperand, h0, h1, hf, bind_ok, bind_error, settle_error]

/-- With the result known, only the store is left to fail. -/
theorem threeOperand_of_result (h0 : s.val a0 = .ok x) (h1 : s.val a1 = .ok y) (hf : f x y = .ok r) :
    threeOperand op f a0 a1 a2 s = s.settle (s.store (dst a2) r >>= fun t => .ok (t.advance op)) := by
  simp only [threeOperand, h0, h1, hf, bind_ok, pure_ok]

theorem threeOperand_of_invalid_destination (h0 : s.val a0 = .ok x) (h1 : s.val a1 = .ok y) (hf : f x y = .ok r)
    (hout : s.mem.inRange (dst a2).toInt = false) :
    threeOperand op f a0 a1 a2 s = .next (s.takeFault .outOfBounds) := by
  rw [threeOperand_of_result h0 h1 hf, State.store, write_of_not_inRange r hout, bind_error, settle_error]

theorem threeOperand_of_valid_destination (h0 : s.val a0 = .ok x) (h1 : s.val a1 = .ok y) (hf : f x y = .ok r)
    (hin : s.mem.inRange (dst a2).toInt = true) :
    threeOperand op f a0 a1 a2 s = .next ((s.setMem (s.mem.put (dst a2).toInt r)).advance op) := by
  rw [threeOperand_of_result h0 h1 hf, State.store, write_of_inRange r hin, bind_ok, settle_ok]

end ThreeOperand

/-! ## An instruction that is a three-operand cycle -/

section ThreeOperandInstruction

variable {i : Instr} {op : Op} {f : Word → Word → Except Cause Word} {a0 a1 a2 : Arg} {s : State} {x y r : Word}
  (hexec : exec i s = threeOperand op f a0 a1 a2 s)

include hexec

theorem raises_of_unreadable_left (h0 : Unreadable s a0) : Raises i s .outOfBounds :=
  raises_of_exec_takeFault (hexec.trans (threeOperand_of_left_error (val_of_unreadable h0)))

theorem raises_of_unreadable_right (h0 : s.val a0 = .ok x) (h1 : Unreadable s a1) : Raises i s .outOfBounds :=
  raises_of_exec_takeFault (hexec.trans (threeOperand_of_right_error h0 (val_of_unreadable h1)))

theorem raises_of_invalid_destination (h0 : s.val a0 = .ok x) (h1 : s.val a1 = .ok y) (hf : f x y = .ok r)
    (hout : s.mem.inRange (dst a2).toInt = false) : Raises i s .outOfBounds :=
  raises_of_exec_takeFault (hexec.trans (threeOperand_of_invalid_destination h0 h1 hf hout))

theorem completes_of_valid_destination (h0 : s.val a0 = .ok x) (h1 : s.val a1 = .ok y) (hf : f x y = .ok r)
    (hin : s.mem.inRange (dst a2).toInt = true) :
    ∃ t, exec i s = .next t ∧ StoredAt (dst a2).toInt r.toInt s t ∧ t.pc = (s.advance op).pc ∧ SameOutcome s t ∧
      SameChannels s t :=
  ⟨_, hexec.trans (threeOperand_of_valid_destination h0 h1 hf hin), storedAt_of_mem_eq_put hin rfl, rfl, ⟨rfl, rfl⟩,
    ⟨rfl, rfl⟩⟩

end ThreeOperandInstruction

/-! ## An instruction that stores a range-tested integer (R96) -/

section CheckedInstruction

variable {i : Instr} {op : Op} {g : Word → Word → Int} {a0 a1 a2 : Arg} {s : State} {x y : Word}
  (hexec : exec i s = threeOperand op (fun x y => checkedResult (g x y)) a0 a1 a2 s)

include hexec

theorem completes_of_fits (h0 : s.val a0 = .ok x) (h1 : s.val a1 = .ok y) (hlo : -2 ^ 63 ≤ g x y)
    (hhi : g x y ≤ 2 ^ 63 - 1) (hin : s.mem.inRange (dst a2).toInt = true) :
    ∃ t, exec i s = .next t ∧ StoredAt (dst a2).toInt (g x y) s t ∧ t.pc = (s.advance op).pc ∧ SameOutcome s t ∧
      SameChannels s t := by
  obtain ⟨r, hr, hv⟩ := checkedResult_of_fits hlo hhi
  rw [← hv]
  exact completes_of_valid_destination hexec h0 h1 hr hin

theorem raises_of_overflow (h0 : s.val a0 = .ok x) (h1 : s.val a1 = .ok y)
    (hout : g x y < -2 ^ 63 ∨ 2 ^ 63 - 1 < g x y) : Raises i s .arithmeticOverflow :=
  raises_of_exec_takeFault (hexec.trans (threeOperand_of_result_error h0 h1 (checkedResult_of_overflow hout)))

theorem raises_of_fits_of_invalid_destination (h0 : s.val a0 = .ok x) (h1 : s.val a1 = .ok y) (hlo : -2 ^ 63 ≤ g x y)
    (hhi : g x y ≤ 2 ^ 63 - 1) (hout : s.mem.inRange (dst a2).toInt = false) : Raises i s .outOfBounds := by
  obtain ⟨r, hr, -⟩ := checkedResult_of_fits hlo hhi
  exact raises_of_invalid_destination hexec h0 h1 hr hout

end CheckedInstruction

/-! ## The four forms (R48, R66) -/

/-- The cells of a three-argument instruction whose destination's digit is 0. -/
theorem encode_of_three {i : Instr} {m0 m1 : Mode} {r0 r1 r2 : Word}
    (hargs : i.args = [⟨r0, m0⟩, ⟨r1, m1⟩, ⟨r2, .position⟩]) :
    encode i = [BitVec.ofNat 64 (i.op.code + 100 * m0.digit + 1000 * m1.digit), r0, r1, r2] := by
  have hword : i.op.code + 100 * modesNat i.args = i.op.code + 100 * m0.digit + 1000 * m1.digit := by
    simp only [hargs, modesNat, Mode.digit]
    omega
  rw [encode, encodeWord, hword, hargs, List.map_cons, List.map_cons, List.map_cons, List.map_nil]

theorem decodeCells_of_three {i : Instr} {m0 m1 : Mode} {r0 r1 r2 : Word}
    (hargs : i.args = [⟨r0, m0⟩, ⟨r1, m1⟩, ⟨r2, .position⟩]) :
    decodeCells [BitVec.ofNat 64 (i.op.code + 100 * m0.digit + 1000 * m1.digit), r0, r1, r2] = .ok i := by
  rw [← encode_of_three hargs, ← List.append_nil (encode i)]
  exact decodeOfEncodeIsTheInstruction i []

/-! ## Add and Multiply -/

theorem exec_add_eq (a0 a1 a2 : Arg) (s : State) :
    exec (.add a0 a1 a2) s = threeOperand .add (fun x y => checkedResult (x.toInt + y.toInt)) a0 a1 a2 s := rfl

theorem exec_multiply_eq (a0 a1 a2 : Arg) (s : State) :
    exec (.multiply a0 a1 a2) s = threeOperand .multiply (fun x y => checkedResult (x.toInt * y.toInt)) a0 a1 a2 s :=
  rfl

/-- Settles O12: Add is the three-operand cycle that stores the range-tested sum, and its four words are encodings. -/
theorem addFollowsItsRule : Obligations.AddFollowsItsRule := by
  intro a0 a1 a2 s
  have hexec := exec_add_eq a0 a1 a2 s
  exact ⟨fun _ _ => completes_of_fits hexec, raises_of_unreadable_left hexec,
    fun _ => raises_of_unreadable_right hexec, fun _ _ => raises_of_overflow hexec,
    fun _ _ => raises_of_fits_of_invalid_destination hexec,
    fun m0 m1 r0 r1 r2 => decodeCells_of_three (i := .add ⟨r0, m0⟩ ⟨r1, m1⟩ ⟨r2, .position⟩) rfl⟩

/-- Settles O13: Multiply is the three-operand cycle that stores the range-tested product, and its four words are
encodings. -/
theorem multiplyFollowsItsRule : Obligations.MultiplyFollowsItsRule := by
  intro a0 a1 a2 s
  have hexec := exec_multiply_eq a0 a1 a2 s
  exact ⟨fun _ _ => completes_of_fits hexec, raises_of_unreadable_left hexec,
    fun _ => raises_of_unreadable_right hexec, fun _ _ => raises_of_overflow hexec,
    fun _ _ => raises_of_fits_of_invalid_destination hexec,
    fun m0 m1 r0 r1 r2 => decodeCells_of_three (i := .multiply ⟨r0, m0⟩ ⟨r1, m1⟩ ⟨r2, .position⟩) rfl⟩

end Sys2Proof.Machine
end

section
/-! The statements of spec/43_io.md: Read and Write, one equation per outcome of each, in the order of their tests. -/

namespace Sys2Proof.Machine

/-! ## The next input element (R98) -/

theorem channelNext_of_getElem? {ch : Channel} {v : Word} (h : ch.items[ch.cur]? = some v) :
    ch.next = .ok (v, ⟨ch.items, ch.cur + 1⟩) := by
  have hcan : ch.canRead = true := (canRead_iff ch).2 (List.getElem?_eq_some_iff.1 h).1
  rw [Channel.next, if_pos hcan, channelRead_of_getElem? h]

theorem channelNext_of_canRead_false {ch : Channel} (h : ch.canRead = false) : ch.next = .error .inputExhausted :=
  if_neg (Bool.eq_false_iff.1 h)

/-! ## The forms with one argument (R48, R66) -/

theorem encode_of_one {i : Instr} {m : Mode} {r : Word} (hargs : i.args = [⟨r, m⟩]) :
    encode i = [BitVec.ofNat 64 (i.op.code + 100 * m.digit), r] := by
  rw [encode, encodeWord, hargs, modesNat, modesNat, Nat.mul_zero, Nat.add_zero, List.map_cons, List.map_nil]

theorem decodeCells_of_one {i : Instr} {m : Mode} {r : Word} (hargs : i.args = [⟨r, m⟩]) :
    decodeCells [BitVec.ofNat 64 (i.op.code + 100 * m.digit), r] = .ok i := by
  rw [← encode_of_one hargs, ← List.append_nil (encode i)]
  exact decodeOfEncodeIsTheInstruction i []

/-! ## Read (R98) -/

section Read

variable {a0 : Arg} {s : State} {ch : Channel} {v : Word}

theorem exec_read_of_unbound (hi : s.input = none) :
    exec (.read a0) s = .next (s.takeFault .noInputChannel) := by
  simp only [exec, execRead, State.boundInput, hi, bind_error, settle_error]

theorem exec_read_of_exhausted (hi : s.input = some ch) (hcan : ch.canRead = false) :
    exec (.read a0) s = .next (s.takeFault .inputExhausted) := by
  simp only [exec, execRead, State.boundInput, hi, channelNext_of_canRead_false hcan, bind_ok, bind_error,
    settle_error]

/-- With an element left to consume, only the store is left to fail. -/
theorem exec_read_of_element (hi : s.input = some ch) (hv : ch.items[ch.cur]? = some v) :
    exec (.read a0) s =
      s.settle (s.store (dst a0) v >>= fun t => .ok ((t.setInput ⟨ch.items, ch.cur + 1⟩).advance .read)) := by
  simp only [exec, execRead, State.boundInput, hi, channelNext_of_getElem? hv, bind_ok, pure_ok]

theorem exec_read_of_invalid_destination (hi : s.input = some ch) (hv : ch.items[ch.cur]? = some v)
    (hout : s.mem.inRange (dst a0).toInt = false) : exec (.read a0) s = .next (s.takeFault .outOfBounds) := by
  rw [exec_read_of_element hi hv, State.store, write_of_not_inRange v hout, bind_error, settle_error]

theorem exec_read_of_valid_destination (hi : s.input = some ch) (hv : ch.items[ch.cur]? = some v)
    (hin : s.mem.inRange (dst a0).toInt = true) :
    exec (.read a0) s =
      .next (((s.setMem (s.mem.put (dst a0).toInt v)).setInput ⟨ch.items, ch.cur + 1⟩).advance .read) := by
  rw [exec_read_of_element hi hv, State.store, write_of_inRange v hin, bind_ok, settle_ok]

end Read

/-- Settles O14: each clause is one of Read's equations; a cursor below the end of the items stands at an element. -/
theorem readFollowsItsRule : Obligations.ReadFollowsItsRule := by
  intro a0 s
  refine ⟨fun ch v hi hv hin => ?_, fun hi => ?_, fun ch hi hle => ?_, fun ch hi hlt hout => ?_, fun m r => ?_⟩
  · exact ⟨_, exec_read_of_valid_destination hi hv hin, storedAt_of_mem_eq_put hin rfl, rfl, rfl, rfl, rfl, rfl⟩
  · exact raises_of_exec_takeFault (exec_read_of_unbound hi)
  · exact raises_of_exec_takeFault (exec_read_of_exhausted hi ((canRead_eq_false_iff ch).2 hle))
  · exact raises_of_exec_takeFault (exec_read_of_invalid_destination hi (List.getElem?_eq_getElem hlt) hout)
  · exact decodeCells_of_one (i := .read ⟨r, m⟩) rfl

/-! ## Write (R99) -/

section Write

variable {a0 : Arg} {s : State} {ch : Channel} {v : Word} {c : Cause}

theorem exec_write_of_operand_error (h0 : s.val a0 = .error c) : exec (.write a0) s = .next (s.takeFault c) := by
  simp only [exec, execWrite, h0, bind_error, settle_error]

theorem exec_write_of_unbound (h0 : s.val a0 = .ok v) (ho : s.output = none) :
    exec (.write a0) s = .next (s.takeFault .noOutputChannel) := by
  simp only [exec, execWrite, State.boundOutput, h0, ho, bind_ok, bind_error, settle_error]

theorem exec_write_of_bound (h0 : s.val a0 = .ok v) (ho : s.output = some ch) :
    exec (.write a0) s = .next ((s.setOutput (ch.write v)).advance .write) := by
  simp only [exec, execWrite, State.boundOutput, h0, ho, bind_ok, pure_ok, settle_ok]

end Write

/-- Settles O15: each clause is one of Write's equations; the operand is resolved before the binding is tested. -/
theorem writeFollowsItsRule : Obligations.WriteFollowsItsRule := by
  intro a0 s
  refine ⟨fun ch v h0 ho => ?_, fun h0 => ?_, fun v h0 ho => ?_, fun m r => ?_⟩
  · exact ⟨_, exec_write_of_bound h0 ho, rfl, rfl, rfl, rfl, rfl, rfl⟩
  · exact raises_of_exec_takeFault (exec_write_of_operand_error (val_of_unreadable h0))
  · exact raises_of_exec_takeFault (exec_write_of_unbound h0 ho)
  · exact decodeCells_of_one (i := .write ⟨r, m⟩) rfl

end Sys2Proof.Machine
end

section
/-! The statements of spec/44_jumps.md: JumpIfTrue and JumpIfFalse, as the two-argument cycle that resolves its target
only when the jump is taken. -/

namespace Sys2Proof.Machine

/-! ## The jump cycle, one equation per outcome (R86, R100 to R102) -/

section JumpWhen

variable {op : Op} {taken : Word → Bool} {a0 a1 : Arg} {s : State} {x target : Word} {c : Cause}

theorem jumpWhen_of_condition_error (h0 : s.val a0 = .error c) :
    jumpWhen op taken a0 a1 s = .next (s.takeFault c) := by
  simp only [jumpWhen, h0, bind_error, settle_error]

/-- The target is not resolved: nothing is asked of `a1` (D19). -/
theorem jumpWhen_of_not_taken (h0 : s.val a0 = .ok x) (hnot : taken x = false) :
    jumpWhen op taken a0 a1 s = .next (s.advance op) := by
  simp only [jumpWhen, h0, hnot, bind_ok, Bool.false_eq_true, if_false, pure_ok, settle_ok]

/-- With the jump taken, only the target is left to fail. -/
theorem jumpWhen_of_taken (h0 : s.val a0 = .ok x) (htaken : taken x = true) :
    jumpWhen op taken a0 a1 s = s.settle (s.val a1 >>= fun t => .ok (s.setPc t)) := by
  simp only [jumpWhen, h0, htaken, bind_ok, if_true, pure_ok]

theorem jumpWhen_of_target_error (h0 : s.val a0 = .ok x) (htaken : taken x = true) (h1 : s.val a1 = .error c) :
    jumpWhen op taken a0 a1 s = .next (s.takeFault c) := by
  rw [jumpWhen_of_taken h0 htaken, h1, bind_error, settle_error]

theorem jumpWhen_of_target (h0 : s.val a0 = .ok x) (htaken : taken x = true) (h1 : s.val a1 = .ok target) :
    jumpWhen op taken a0 a1 s = .next (s.setPc target) := by
  rw [jumpWhen_of_taken h0 htaken, h1, bind_ok, settle_ok]

end JumpWhen

/-! ## An instruction that is a jump cycle -/

section JumpInstruction

variable {i : Instr} {op : Op} {taken : Word → Bool} {a0 a1 : Arg} {s : State} {x target : Word}
  (hexec : exec i s = jumpWhen op taken a0 a1 s)

include hexec

theorem completes_at_target_of_taken (h0 : s.val a0 = .ok x) (htaken : taken x = true) (h1 : s.val a1 = .ok target) :
    ∃ t, exec i s = .next t ∧ t.pc = target ∧ t.mem = s.mem ∧ SameOutcome s t ∧ SameChannels s t :=
  ⟨_, hexec.trans (jumpWhen_of_target h0 htaken h1), rfl, rfl, ⟨rfl, rfl⟩, ⟨rfl, rfl⟩⟩

theorem completes_at_next_of_not_taken (h0 : s.val a0 = .ok x) (hnot : taken x = false) :
    ∃ t, exec i s = .next t ∧ t.pc = (s.advance op).pc ∧ t.mem = s.mem ∧ SameOutcome s t ∧ SameChannels s t :=
  ⟨_, hexec.trans (jumpWhen_of_not_taken h0 hnot), rfl, rfl, ⟨rfl, rfl⟩, ⟨rfl, rfl⟩⟩

theorem raises_of_unreadable_condition (h0 : Unreadable s a0) : Raises i s .outOfBounds :=
  raises_of_exec_takeFault (hexec.trans (jumpWhen_of_condition_error (val_of_unreadable h0)))

theorem raises_of_unreadable_target (h0 : s.val a0 = .ok x) (htaken : taken x = true) (h1 : Unreadable s a1) :
    Raises i s .outOfBounds :=
  raises_of_exec_takeFault (hexec.trans (jumpWhen_of_target_error h0 htaken (val_of_unreadable h1)))

end JumpInstruction

/-! ## The forms with two arguments (R48, R66) -/

theorem encode_of_two {i : Instr} {m0 m1 : Mode} {r0 r1 : Word} (hargs : i.args = [⟨r0, m0⟩, ⟨r1, m1⟩]) :
    encode i = [BitVec.ofNat 64 (i.op.code + 100 * m0.digit + 1000 * m1.digit), r0, r1] := by
  have hword : i.op.code + 100 * modesNat i.args = i.op.code + 100 * m0.digit + 1000 * m1.digit := by
    simp only [hargs, modesNat]
    omega
  rw [encode, encodeWord, hword, hargs, List.map_cons, List.map_cons, List.map_nil]

theorem decodeCells_of_two {i : Instr} {m0 m1 : Mode} {r0 r1 : Word} (hargs : i.args = [⟨r0, m0⟩, ⟨r1, m1⟩]) :
    decodeCells [BitVec.ofNat 64 (i.op.code + 100 * m0.digit + 1000 * m1.digit), r0, r1] = .ok i := by
  rw [← encode_of_two hargs, ← List.append_nil (encode i)]
  exact decodeOfEncodeIsTheInstruction i []

/-! ## JumpIfTrue and JumpIfFalse -/

theorem exec_jumpIfTrue_eq (a0 a1 : Arg) (s : State) :
    exec (.jumpIfTrue a0 a1) s = jumpWhen .jumpIfTrue (fun c => c.toInt ≠ 0) a0 a1 s := rfl

theorem exec_jumpIfFalse_eq (a0 a1 : Arg) (s : State) :
    exec (.jumpIfFalse a0 a1) s = jumpWhen .jumpIfFalse (fun c => c.toInt = 0) a0 a1 s := rfl

/-- Settles O16: JumpIfTrue is the jump cycle taken on a non-zero condition, and its four words are encodings. -/
theorem jumpIfTrueFollowsItsRule : Obligations.JumpIfTrueFollowsItsRule := by
  intro a0 a1 s
  have hexec := exec_jumpIfTrue_eq a0 a1 s
  refine ⟨fun c target h0 hc h1 => ?_, fun c h0 hc => ?_, fun h0 => ?_, fun c h0 hc h1 => ?_, fun m0 m1 r0 r1 => ?_⟩
  · exact completes_at_target_of_taken hexec h0 (decide_eq_true hc) h1
  · exact completes_at_next_of_not_taken hexec h0 (decide_eq_false (not_not_intro hc))
  · exact raises_of_unreadable_condition hexec h0
  · exact raises_of_unreadable_target hexec h0 (decide_eq_true hc) h1
  · exact decodeCells_of_two (i := .jumpIfTrue ⟨r0, m0⟩ ⟨r1, m1⟩) rfl

/-- Settles O17: JumpIfFalse is the jump cycle taken on the condition 0, and its four words are encodings. -/
theorem jumpIfFalseFollowsItsRule : Obligations.JumpIfFalseFollowsItsRule := by
  intro a0 a1 s
  have hexec := exec_jumpIfFalse_eq a0 a1 s
  refine ⟨fun c target h0 hc h1 => ?_, fun c h0 hc => ?_, fun h0 => ?_, fun c h0 hc h1 => ?_, fun m0 m1 r0 r1 => ?_⟩
  · exact completes_at_target_of_taken hexec h0 (decide_eq_true hc) h1
  · exact completes_at_next_of_not_taken hexec h0 (decide_eq_false hc)
  · exact raises_of_unreadable_condition hexec h0
  · exact raises_of_unreadable_target hexec h0 (decide_eq_true hc) h1
  · exact decodeCells_of_two (i := .jumpIfFalse ⟨r0, m0⟩ ⟨r1, m1⟩) rfl

end Sys2Proof.Machine
end

section
/-! The statements of spec/45_compare.md: LessThan and Equals, as the three-operand cycle whose result is 1 or 0 and
never fails. -/

namespace Sys2Proof.Machine

/-! ## An instruction that stores whether its operands are related (R103, R104) -/

section ComparisonInstruction

variable {i : Instr} {op : Op} {p : Word → Word → Prop} [∀ x y, Decidable (p x y)] {a0 a1 a2 : Arg} {s : State}
  {x y : Word} (hexec : exec i s = threeOperand op (fun x y => .ok (truthWord (p x y))) a0 a1 a2 s)

include hexec

theorem completes_with_truth (h0 : s.val a0 = .ok x) (h1 : s.val a1 = .ok y)
    (hin : s.mem.inRange (dst a2).toInt = true) :
    ∃ t, exec i s = .next t ∧ StoredAt (dst a2).toInt (if p x y then 1 else 0) s t ∧ t.pc = (s.advance op).pc ∧
      SameOutcome s t ∧ SameChannels s t := by
  have hvalue : (truthWord (p x y)).toInt = if p x y then 1 else 0 := by
    simp only [truthWord_toInt, decide_eq_true_eq]
  rw [← hvalue]
  exact completes_of_valid_destination hexec h0 h1 rfl hin

end ComparisonInstruction

/-! ## LessThan and Equals -/

theorem exec_lessThan_eq (a0 a1 a2 : Arg) (s : State) :
    exec (.lessThan a0 a1 a2) s = threeOperand .lessThan (fun x y => .ok (truthWord (x.toInt < y.toInt))) a0 a1 a2 s :=
  rfl

theorem exec_equals_eq (a0 a1 a2 : Arg) (s : State) :
    exec (.equals a0 a1 a2) s = threeOperand .equals (fun x y => .ok (truthWord (x.toInt = y.toInt))) a0 a1 a2 s := rfl

/-- Settles O18: LessThan is the three-operand cycle that stores the truth of the signed order, and its four words are
encodings. -/
theorem lessThanFollowsItsRule : Obligations.LessThanFollowsItsRule := by
  intro a0 a1 a2 s
  have hexec := exec_lessThan_eq a0 a1 a2 s
  refine ⟨fun x y h0 h1 hin => ?_, fun h0 => ?_, fun x h0 h1 => ?_, fun x y h0 h1 hout => ?_,
    fun m0 m1 r0 r1 r2 => ?_⟩
  · exact completes_with_truth hexec h0 h1 hin
  · exact raises_of_unreadable_left hexec h0
  · exact raises_of_unreadable_right hexec h0 h1
  · exact raises_of_invalid_destination hexec h0 h1 rfl hout
  · exact decodeCells_of_three (i := .lessThan ⟨r0, m0⟩ ⟨r1, m1⟩ ⟨r2, .position⟩) rfl

/-- Settles O19: Equals is the three-operand cycle that stores the truth of the integers' equality, and its four words
are encodings. -/
theorem equalsFollowsItsRule : Obligations.EqualsFollowsItsRule := by
  intro a0 a1 a2 s
  have hexec := exec_equals_eq a0 a1 a2 s
  refine ⟨fun x y h0 h1 hin => ?_, fun h0 => ?_, fun x h0 h1 => ?_, fun x y h0 h1 hout => ?_,
    fun m0 m1 r0 r1 r2 => ?_⟩
  · exact completes_with_truth hexec h0 h1 hin
  · exact raises_of_unreadable_left hexec h0
  · exact raises_of_unreadable_right hexec h0 h1
  · exact raises_of_invalid_destination hexec h0 h1 rfl hout
  · exact decodeCells_of_three (i := .equals ⟨r0, m0⟩ ⟨r1, m1⟩ ⟨r2, .position⟩) rfl

end Sys2Proof.Machine
end

section
/-! The statement of spec/46_halt.md: Halt as the one instruction whose cycle changes `STATUS` alone, and the words that
decode to it. -/

namespace Sys2Proof.Machine

theorem exec_halt_eq (s : State) : exec .halt s = .next (s.setStatus .halted) := execHalt_eq s

/-- Halt decodes exactly from a Halt word: it has no argument cell or mode digit to look at (R56, R105). -/
theorem decode_eq_ok_halt_iff {fetch : Nat → Option Word} :
    decode fetch = .ok .halt ↔ ∃ w, fetch 0 = some w ∧ 0 ≤ w.toInt ∧ w.toInt % 100 = 99 := by
  simp [decode_ok_iff, opOfWord_eq_some_iff, Instr.op, Instr.args, Op.code]

/-- Settles O20: the state Halt answers with is not RUNNING, so no step follows it, and the Halt words are exactly those
Halt decodes from. -/
theorem haltFollowsItsRule : Obligations.HaltFollowsItsRule := by
  refine ⟨fun s => ?_, fun w rest hnonneg hdigits => ?_⟩
  · have hstopped : (s.setStatus .halted).status ≠ .running := by simp
    exact ⟨s.setStatus .halted, exec_halt_eq s, rfl, rfl, rfl, rfl, execHalt_sameChannels (execHalt_eq s),
      step_ne_next hstopped⟩
  · exact decode_eq_ok_halt_iff.2 ⟨w, rfl, hnonneg, hdigits⟩

end Sys2Proof.Machine
end

section
/-! The statements of spec/60_exceptions.md: which causes a cycle can raise and that raising one is all a faulting cycle
does, how the outcome tells runs apart, and the hand-off from one engine to the next. -/

namespace Sys2Proof.Machine

/-! ## The causes of a decode failure (R107 to R109) -/

theorem mem_of_decode_error {fetch : Nat → Option Word} {c : Cause} (h : decode fetch = .error c) :
    c ∈ [Cause.outOfBounds, .invalidOpcode, .invalidMode] := by
  cases h0 : fetch 0 with
  | none =>
    cases (decode_of_no_word h0).symm.trans h
    decide
  | some w =>
    cases hop : opOfWord w with
    | none =>
      cases (decode_of_no_op h0 hop).symm.trans h
      decide
    | some op =>
      obtain ⟨_, _, ⟨_, rfl⟩ | ⟨_, rfl⟩⟩ := decode_error_cases h0 hop h <;> decide

/-! ## What an instruction that raises leaves (R115, R116, R120) -/

/-- Where `t` is FAULTED, it is `s` with the fault entry of one of `causes` made. -/
def FaultsOnlyBy (causes : List Cause) (s t : State) : Prop :=
  t.status = .faulted → ∃ c ∈ causes, t = s.takeFault c

theorem checkedResult_error {v : Int} {c : Cause} (h : checkedResult v = .error c) : c = .arithmeticOverflow := by
  rcases checkedResult_cases v with ⟨_, _, _, hok, _⟩ | ⟨_, he⟩
  · cases hok.symm.trans h
  · cases he.symm.trans h
    rfl

section Faulting

variable {causes : List Cause} {s t : State}

theorem faultsOnlyBy_takeFault {c : Cause} (hc : c ∈ causes) : FaultsOnlyBy causes s (s.takeFault c) :=
  fun _ => ⟨c, hc, rfl⟩

theorem faultsOnlyBy_of_not_faulted (ht : t.status ≠ .faulted) : FaultsOnlyBy causes s t :=
  fun hf => absurd hf ht

/-- An unresolved operand raises `OutOfBounds`, so a rule that can raise it covers the fault entry of that operand. -/
theorem faultsOnlyBy_of_val_error {arg : Arg} {c : Cause} (hob : .outOfBounds ∈ causes) (hv : s.val arg = .error c) :
    FaultsOnlyBy causes s (s.takeFault c) := by
  cases val_error hv
  exact faultsOnlyBy_takeFault hob

theorem threeOperand_faultsOnlyBy {op : Op} {f : Word → Word → Except Cause Word} {a0 a1 a2 : Arg}
    (hob : .outOfBounds ∈ causes) (hf : ∀ x y c, f x y = .error c → c ∈ causes) (hs : s.status ≠ .faulted)
    (h : threeOperand op f a0 a1 a2 s = .next t) : FaultsOnlyBy causes s t := by
  rcases threeOperand_cases op f a0 a1 a2 s with ⟨_, hv, he⟩ | ⟨_, _, _, hv, he⟩ | ⟨x, y, c, _, _, hr, he⟩ |
      ⟨_, _, _, _, _, _, _, he⟩ | ⟨_, _, _, _, _, _, _, he⟩ <;> cases he.symm.trans h
  · exact faultsOnlyBy_of_val_error hob hv
  · exact faultsOnlyBy_of_val_error hob hv
  · exact faultsOnlyBy_takeFault (hf x y c hr)
  · exact faultsOnlyBy_takeFault hob
  · exact faultsOnlyBy_of_not_faulted hs

theorem jumpWhen_faultsOnlyBy {op : Op} {taken : Word → Bool} {a0 a1 : Arg} (hob : .outOfBounds ∈ causes)
    (hs : s.status ≠ .faulted) (h : jumpWhen op taken a0 a1 s = .next t) : FaultsOnlyBy causes s t := by
  rcases jumpWhen_cases op taken a0 a1 s with ⟨_, hv, he⟩ | ⟨_, _, _, he⟩ | ⟨_, _, _, _, hv, he⟩ |
      ⟨_, _, _, _, _, he⟩ <;> cases he.symm.trans h
  · exact faultsOnlyBy_of_val_error hob hv
  · exact faultsOnlyBy_of_not_faulted hs
  · exact faultsOnlyBy_of_val_error hob hv
  · exact faultsOnlyBy_of_not_faulted hs

theorem execRead_faultsOnlyBy {a0 : Arg} (hs : s.status ≠ .faulted) (h : execRead a0 s = .next t) :
    FaultsOnlyBy (executionCauses .read) s t := by
  rcases execRead_cases a0 s with ⟨_, he⟩ | ⟨_, _, _, he⟩ | ⟨_, _, _, _, he⟩ | ⟨_, _, _, _, _, he⟩ <;>
    cases he.symm.trans h
  · exact faultsOnlyBy_takeFault (by decide)
  · exact faultsOnlyBy_takeFault (by decide)
  · exact faultsOnlyBy_takeFault (by decide)
  · exact faultsOnlyBy_of_not_faulted hs

theorem execWrite_faultsOnlyBy {a0 : Arg} (hs : s.status ≠ .faulted) (h : execWrite a0 s = .next t) :
    FaultsOnlyBy (executionCauses .write) s t := by
  rcases execWrite_cases a0 s with ⟨_, hv, he⟩ | ⟨_, _, _, he⟩ | ⟨_, _, _, _, he⟩ <;> cases he.symm.trans h
  · exact faultsOnlyBy_of_val_error (by decide) hv
  · exact faultsOnlyBy_takeFault (by decide)
  · exact faultsOnlyBy_of_not_faulted hs

theorem execHalt_faultsOnlyBy (h : execHalt s = .next t) : FaultsOnlyBy causes s t := by
  cases (execHalt_eq s).symm.trans h
  exact faultsOnlyBy_of_not_faulted (by simp)

/-- An instruction that leaves a FAULTED state made the fault entry of a cause its row of R120 marks, and did nothing
else. -/
theorem exec_faultsOnlyBy {i : Instr} (hs : s.status ≠ .faulted) (h : exec i s = .next t) :
    FaultsOnlyBy (executionCauses i.op) s t := by
  have hchecked (v : Int) (c : Cause) (hc : checkedResult v = .error c) :
      c ∈ [Cause.outOfBounds, .arithmeticOverflow] := by
    cases checkedResult_error hc
    decide
  cases i with
  | add => exact threeOperand_faultsOnlyBy (.head _) (fun _ _ => hchecked _) hs h
  | multiply => exact threeOperand_faultsOnlyBy (.head _) (fun _ _ => hchecked _) hs h
  | read => exact execRead_faultsOnlyBy hs h
  | write => exact execWrite_faultsOnlyBy hs h
  | jumpIfTrue => exact jumpWhen_faultsOnlyBy (.head _) hs h
  | jumpIfFalse => exact jumpWhen_faultsOnlyBy (.head _) hs h
  | lessThan => exact threeOperand_faultsOnlyBy (.head _) (by simp) hs h
  | equals => exact threeOperand_faultsOnlyBy (.head _) (by simp) hs h
  | halt => exact execHalt_faultsOnlyBy h

end Faulting

/-- Settles O26: the cycle either failed to decode, which is a fault entry, or ran an instruction on a RUNNING state. -/
theorem faultedCyclesChangeNothingElse : Obligations.FaultedCyclesChangeNothingElse := by
  intro s t h hf
  obtain ⟨hrunning, ⟨c, -, rfl⟩ | ⟨i, -, he⟩⟩ := step_next h
  · exact ⟨c, faultEntry_takeFault c s⟩
  · have hs : s.status ≠ .faulted := by simp [hrunning]
    obtain ⟨c, -, rfl⟩ := exec_faultsOnlyBy hs he hf
    exact ⟨c, faultEntry_takeFault c s⟩

/-- Settles O27: the cause is that of the one fault entry the instruction made, and decoding has its own three. -/
theorem causesEachInstructionCanRaise : Obligations.CausesEachInstructionCanRaise := by
  refine ⟨fun i s t hs h hf => ?_, fun fetch c => mem_of_decode_error⟩
  obtain ⟨c, hc, rfl⟩ := exec_faultsOnlyBy hs h hf
  exact ⟨c, hc, takeFault_cause c s⟩

/-! ## Reading `STATUS` and `CAUSE` back from the outcome (R118) -/

/-- The value of `CAUSE` a code stands for (R106). -/
def causeOfCode : Nat → Option Cause
  | 1 => some .invalidOpcode
  | 2 => some .invalidMode
  | 3 => some .outOfBounds
  | 4 => some .noInputChannel
  | 5 => some .noOutputChannel
  | 6 => some .inputExhausted
  | 7 => some .arithmeticOverflow
  | _ => none

theorem causeOfCode_causeCode (cause : Option Cause) : causeOfCode (causeCode cause) = cause := by
  rcases cause with _ | c
  · rfl
  · cases c <;> rfl

/-- The `STATUS` an outcome is seen in. -/
def RunOutcome.status : RunOutcome → Status
  | .notStarted => .ready
  | .stillRunning => .running
  | .halted => .halted
  | .faulted _ => .faulted

/-- The `CAUSE` an outcome is seen with. -/
def RunOutcome.cause : RunOutcome → Option Cause
  | .notStarted => none
  | .stillRunning => none
  | .halted => none
  | .faulted code => causeOfCode code

theorem outcome_status (s : State) : s.outcome.status = s.status := by
  unfold State.outcome
  cases s.status <;> rfl

theorem cause_eq_none_of_inv {s : State} (hinv : s.Inv) (hs : s.status ≠ .faulted) : s.cause = none := by
  obtain ⟨-, -, -, hcause⟩ := hinv
  exact Option.not_isSome_iff_eq_none.1 (mt hcause.2 hs)

theorem outcome_cause {s : State} (hinv : s.Inv) : s.outcome.cause = s.cause := by
  have hnone := cause_eq_none_of_inv hinv
  unfold State.outcome
  cases h : s.status with
  | ready => exact (hnone (by simp [h])).symm
  | running => exact (hnone (by simp [h])).symm
  | halted => exact (hnone (by simp [h])).symm
  | faulted => exact causeOfCode_causeCode s.cause

/-- Settles O35: both fields are functions of the outcome. -/
theorem outcomesAreDistinguishable : Obligations.OutcomesAreDistinguishable := by
  intro s t hs ht h
  rw [← outcome_status s, ← outcome_status t, ← outcome_cause hs, ← outcome_cause ht, h]
  exact ⟨rfl, rfl⟩

/-! ## Several engines (R124) -/

theorem setInputChannel_of_ready {s : State} (ch : Channel) (hs : s.status = .ready) :
    setInputChannel ch s = .next (s.setInput ch) := by
  rw [setInputChannel, hs]

theorem handOff_of_bound {finished : State} {ch : Channel} (later : State) (h : finished.ended = true)
    (ho : finished.output = some ch) : handOff finished later = setInputChannel ch later := by
  rw [handOff, h, ho]

/-- Settles O45: the hand-off binds the finished engine's channel to the later one, its only change. -/
theorem chainHandsTheOutputOver : Obligations.ChainHandsTheOutputOver := by
  intro finished later ch h ho hs
  have hbound := (handOff_of_bound later h ho).trans (setInputChannel_of_ready ch hs)
  exact ⟨later.setInput ch, hbound, rfl, rfl, rfl, rfl, rfl, rfl⟩

end Sys2Proof.Machine
end

section
/-! The statements of spec/70_reset_and_hazards.md: construction, the host's operations before and after a run, when the
engine moves and how a run ends. -/

namespace Sys2Proof.Machine

/-! ## The image copied at construction (R130) -/

theorem cellLookup_of_absentIn {a : Nat} {l : List (Nat × Word)} (h : absentIn a l) :
    cellLookup l a = Config.unlistedCell := by
  induction l with
  | nil => rfl
  | cons c rest ih =>
    obtain ⟨hc, hrest⟩ := List.forall_mem_cons.1 h
    rw [cellLookup, if_neg hc, ih hrest]

/-- An image's cells hold its values, the zeros it does not list included. -/
theorem cellLookup_cellsOfImage (image : List Word) (a k : Nat) :
    cellLookup (cellsOfImage a image) (a + k) = image[k]?.getD Config.unlistedCell := by
  induction image generalizing a k with
  | nil => rfl
  | cons v rest ih =>
    have habsent : absentIn a (cellsOfImage (a + 1) rest) := fun c hc => by
      obtain ⟨hle, -⟩ := mem_cellsOfImage hc
      omega
    have hnext (j : Nat) : cellLookup (cellsOfImage (a + 1) rest) (a + (j + 1)) = rest[j]?.getD Config.unlistedCell := by
      rw [← ih (a + 1) j, Nat.add_right_comm, Nat.add_assoc]
    rw [cellsOfImage]
    split
    · next hv =>
      cases k with
      | zero => exact (cellLookup_of_absentIn habsent).trans hv.symm
      | succ j => exact hnext j
    · cases k with
      | zero => simp [cellLookup]
      | succ j => simp [cellLookup, hnext]

theorem ofImage_cell (image : List Word) (a : Nat) : (Memory.ofImage image).cell? a = image[a]? := by
  by_cases h : a < image.length
  · have hin : (Memory.ofImage image).inRange a = true :=
      (inRange_iff _ _).2 ⟨Int.natCast_nonneg a, Int.ofNat_lt.2 h⟩
    have hlookup := cellLookup_cellsOfImage image 0 a
    rw [Nat.zero_add, List.getElem?_eq_getElem h, Option.getD_some] at hlookup
    rw [cell_of_inRange hin, List.getElem?_eq_getElem h]
    exact congrArg some hlookup
  · have hlen : image.length ≤ a := Nat.le_of_not_lt h
    rw [List.getElem?_eq_none hlen]
    exact cell_of_not_inRange ((inRange_eq_false_iff _ _).2 (.inr (Int.ofNat_le.2 hlen)))

/-- Settles O41: the memory of a copied image is known cell by cell, and every other field is written out. -/
theorem constructCopiesTheImage : Obligations.ConstructCopiesTheImage :=
  fun image _ => ⟨rfl, ofImage_cell image, rfl, rfl, rfl, rfl, rfl⟩

/-! ## Binding and `execute()` (R132, R133, R141, R145) -/

section BeforeTheRun

variable {s t : State}

theorem setOutputChannel_of_ready (ch : Channel) (hs : s.status = .ready) :
    setOutputChannel ch s = .next (s.setOutput ch) := by
  rw [setOutputChannel, hs]

theorem execute_of_ready (hs : s.status = .ready) : execute s = .next (s.setStatus .running) := by
  rw [execute, hs]

theorem setInputChannel_of_not_ready (ch : Channel) (hs : s.status ≠ .ready) :
    setInputChannel ch s = .refused .bindOutsideReady := by
  unfold setInputChannel
  cases h : s.status with
  | ready => exact absurd h hs
  | running => rfl
  | halted => rfl
  | faulted => rfl

theorem setOutputChannel_of_not_ready (ch : Channel) (hs : s.status ≠ .ready) :
    setOutputChannel ch s = .refused .bindOutsideReady := by
  unfold setOutputChannel
  cases h : s.status with
  | ready => exact absurd h hs
  | running => rfl
  | halted => rfl
  | faulted => rfl

theorem execute_of_not_ready (hs : s.status ≠ .ready) : execute s = .refused .executeOutsideReady := by
  unfold execute
  cases h : s.status with
  | ready => exact absurd h hs
  | running => rfl
  | halted => rfl
  | faulted => rfl

theorem setInputChannel_next {ch : Channel} (h : setInputChannel ch s = .next t) : t = s.setInput ch := by
  by_cases hs : s.status = .ready
  · cases (setInputChannel_of_ready ch hs).symm.trans h
    rfl
  · cases (setInputChannel_of_not_ready ch hs).symm.trans h

theorem setOutputChannel_next {ch : Channel} (h : setOutputChannel ch s = .next t) : t = s.setOutput ch := by
  by_cases hs : s.status = .ready
  · cases (setOutputChannel_of_ready ch hs).symm.trans h
    rfl
  · cases (setOutputChannel_of_not_ready ch hs).symm.trans h

theorem execute_next (h : execute s = .next t) : s.status = .ready ∧ t = s.setStatus .running := by
  by_cases hs : s.status = .ready
  · cases (execute_of_ready hs).symm.trans h
    exact ⟨hs, rfl⟩
  · cases (execute_of_not_ready hs).symm.trans h

/-- Input is supplied by a write to the tail of the channel that is bound (R76). -/
theorem supplyInput_next {v : Word} (h : supplyInput v s = .next t) :
    ∃ ch, s.input = some ch ∧ t = s.setInput (ch.write v) := by
  by_cases hs : s.status = .ready
  · cases hi : s.input with
    | none => cases (supplyInput_of_unbound v hs hi).symm.trans h
    | some ch =>
      cases (supplyInput_of_ready v hs hi).symm.trans h
      exact ⟨ch, rfl, rfl⟩
  · cases (supplyInput_of_not_ready v hs).symm.trans h

end BeforeTheRun

/-- Settles O42: in READY a setter answers with the one field it sets, whatever stood there, and elsewhere it refuses. -/
theorem bindingIsForReadyOnly : Obligations.BindingIsForReadyOnly := by
  refine fun s ch => ⟨fun hs => ⟨?_, ?_⟩, fun hs => ?_⟩
  · exact ⟨_, setInputChannel_of_ready ch hs, rfl, rfl, rfl, rfl, rfl, rfl, rfl⟩
  · exact ⟨_, setOutputChannel_of_ready ch hs, rfl, rfl, rfl, rfl, rfl, rfl, rfl⟩
  · exact ⟨setInputChannel_of_not_ready ch hs, setOutputChannel_of_not_ready ch hs⟩

/-- Settles O43: in READY `execute()` sets `STATUS` alone, and elsewhere it refuses. -/
theorem executeBeginsTheRun : Obligations.ExecuteBeginsTheRun :=
  fun _ => ⟨fun hs => ⟨_, execute_of_ready hs, rfl, rfl, rfl, rfl, rfl, rfl⟩, execute_of_not_ready⟩

/-! ## Inspection after the run (R136) -/

section AfterTheRun

variable {s t : State} {ch : Channel} {v : Word}

theorem inspectCell_of_ended (a : Int) (h : s.ended = true) : inspectCell a s = s.mem.cell? a := if_pos h

theorem outputReadable_of_ended (h : s.ended = true) (ho : s.output = some ch) : outputReadable s = ch.canRead := by
  simp only [outputReadable, ho, h, Bool.true_and]

theorem collectedValue_of_ended (h : s.ended = true) (ho : s.output = some ch) :
    collectedValue s = ch.items[ch.cur]? := by
  simp only [collectedValue, ho, h, if_true]

theorem collectOutput_of_element (h : s.ended = true) (ho : s.output = some ch) (hv : ch.items[ch.cur]? = some v) :
    collectOutput s = .next (s.setOutput ⟨ch.items, ch.cur + 1⟩) := by
  simp only [collectOutput, h, ho, channelRead_of_getElem? hv]

theorem collectOutput_of_exhausted (h : s.ended = true) (ho : s.output = some ch) (hcan : ch.canRead = false) :
    collectOutput s = .refused .channelExhausted := by
  simp only [collectOutput, h, ho, channelRead_of_canRead_false hcan]

/-- Output is collected by moving the cursor of the channel that is bound past one element that was left (R73). -/
theorem collectOutput_next (h : collectOutput s = .next t) :
    ∃ ch, s.output = some ch ∧ ch.cur < ch.items.length ∧ t = s.setOutput ⟨ch.items, ch.cur + 1⟩ := by
  cases hended : s.ended with
  | false => cases (collectOutput_of_not_ended hended).symm.trans h
  | true =>
    cases ho : s.output with
    | none => cases (collectOutput_of_unbound hended ho).symm.trans h
    | some ch =>
      rcases channelRead_cases ch with ⟨hcan, v, hv, -⟩ | ⟨hcan, -⟩
      · cases (collectOutput_of_element hended ho hv).symm.trans h
        exact ⟨ch, rfl, (canRead_iff ch).1 hcan, rfl⟩
      · cases (collectOutput_of_exhausted hended ho hcan).symm.trans h

/-- A hand-off binds the finished engine's output channel as the later engine's input (R124). -/
theorem handOff_next {finished later : State} (h : handOff finished later = .next t) :
    ∃ ch, finished.output = some ch ∧ t = later.setInput ch := by
  cases hended : finished.ended with
  | false => cases (handOff_of_not_ended later hended).symm.trans h
  | true =>
    cases ho : finished.output with
    | none => cases (handOff_of_unbound later hended ho).symm.trans h
    | some ch => exact ⟨ch, rfl, setInputChannel_next ((handOff_of_bound later hended ho).symm.trans h)⟩

end AfterTheRun

/-- Settles O44: each clause is what one operation of the host answers after the end of a run. -/
theorem hostInspectsAfterTheRun : Obligations.HostInspectsAfterTheRun := by
  refine fun s h => ⟨fun a => inspectCell_of_ended a h, fun ch => outputReadable_of_ended h, fun ch v ho hv => ?_,
    fun ch => collectOutput_of_exhausted h⟩
  exact ⟨(collectedValue_of_ended h ho).trans hv, _, collectOutput_of_element h ho hv, rfl, rfl, rfl, rfl, rfl, rfl⟩

/-! ## When the engine moves (R92, R144) -/

theorem exists_settle_next (s : State) (r : Except Cause State) : ∃ t, s.settle r = .next t := by
  cases r with
  | ok t => exact ⟨t, settle_ok s t⟩
  | error c => exact ⟨_, settle_error s c⟩

/-- Every operation ends its cycle by `settle`, so each has a next state. -/
theorem exists_exec_next (i : Instr) (s : State) : ∃ t, exec i s = .next t := by
  cases i with
  | halt => exact ⟨_, exec_halt_eq s⟩
  | _ => exact exists_settle_next s _

theorem exists_step_next {s : State} (hs : s.status = .running) : ∃ t, step s = .next t := by
  cases hd : decode s.fetch with
  | error c => exact ⟨_, step_of_decode_error hs hd⟩
  | ok i =>
    rw [step_of_decode hs hd]
    exact exists_exec_next i s

/-- Settles O25: a RUNNING engine's cycle always ends in a next state, and the other three stops are `step`'s own. -/
theorem exactlyRunningEnginesStep : Obligations.ExactlyRunningEnginesStep := by
  refine ⟨fun s => ⟨fun ⟨t, h⟩ => (step_next h).1, exists_step_next⟩, fun s hs => ?_, fun s hs => ?_, fun s hs => ?_⟩
  all_goals rw [step, hs]

/-! ## What one step does to `STATUS` and `CAUSE` (R80, R105, R116) -/

theorem threeOperand_sameOutcome {op : Op} {f : Word → Word → Except Cause Word} {a0 a1 a2 : Arg} {s t : State}
    (h : threeOperand op f a0 a1 a2 s = .next t) (hf : t.status ≠ .faulted) : SameOutcome s t := by
  rcases threeOperand_cases op f a0 a1 a2 s with ⟨_, _, he⟩ | ⟨_, _, _, _, he⟩ | ⟨_, _, _, _, _, _, he⟩ |
      ⟨_, _, _, _, _, _, _, he⟩ | ⟨_, _, _, _, _, _, _, he⟩ <;> cases he.symm.trans h
  case inr.inr.inr.inr => exact ⟨rfl, rfl⟩
  all_goals exact absurd rfl hf

theorem jumpWhen_sameOutcome {op : Op} {taken : Word → Bool} {a0 a1 : Arg} {s t : State}
    (h : jumpWhen op taken a0 a1 s = .next t) (hf : t.status ≠ .faulted) : SameOutcome s t := by
  rcases jumpWhen_cases op taken a0 a1 s with ⟨_, _, he⟩ | ⟨_, _, _, he⟩ | ⟨_, _, _, _, _, he⟩ |
      ⟨_, _, _, _, _, he⟩ <;> cases he.symm.trans h
  · exact absurd rfl hf
  · exact ⟨rfl, rfl⟩
  · exact absurd rfl hf
  · exact ⟨rfl, rfl⟩

theorem execRead_sameOutcome {a0 : Arg} {s t : State} (h : execRead a0 s = .next t) (hf : t.status ≠ .faulted) :
    SameOutcome s t := by
  rcases execRead_cases a0 s with ⟨_, he⟩ | ⟨_, _, _, he⟩ | ⟨_, _, _, _, he⟩ | ⟨_, _, _, _, _, he⟩ <;>
    cases he.symm.trans h
  case inr.inr.inr => exact ⟨rfl, rfl⟩
  all_goals exact absurd rfl hf

theorem execWrite_sameOutcome {a0 : Arg} {s t : State} (h : execWrite a0 s = .next t) (hf : t.status ≠ .faulted) :
    SameOutcome s t := by
  rcases execWrite_cases a0 s with ⟨_, _, he⟩ | ⟨_, _, _, he⟩ | ⟨_, _, _, _, he⟩ <;> cases he.symm.trans h
  case inr.inr => exact ⟨rfl, rfl⟩
  all_goals exact absurd rfl hf

/-- An operation other than Halt that completes leaves `STATUS` and `CAUSE`. -/
theorem exec_sameOutcome {i : Instr} {s t : State} (hi : i ≠ .halt) (h : exec i s = .next t)
    (hf : t.status ≠ .faulted) : SameOutcome s t := by
  cases i with
  | add => exact threeOperand_sameOutcome h hf
  | multiply => exact threeOperand_sameOutcome h hf
  | read => exact execRead_sameOutcome h hf
  | write => exact execWrite_sameOutcome h hf
  | jumpIfTrue => exact jumpWhen_sameOutcome h hf
  | jumpIfFalse => exact jumpWhen_sameOutcome h hf
  | lessThan => exact threeOperand_sameOutcome h hf
  | equals => exact threeOperand_sameOutcome h hf
  | halt => exact absurd rfl hi

/-- Everything a step can do to `STATUS` and `CAUSE`: a fault entry, the end at a Halt instruction, or nothing. -/
theorem step_outcome {s t : State} (h : step s = .next t) :
    (decode s.fetch ≠ .ok .halt ∧ ∃ c, t.status = .faulted ∧ t.cause = some c) ∨
    (decode s.fetch = .ok .halt ∧ t.status = .halted ∧ t.cause = s.cause) ∨
    (decode s.fetch ≠ .ok .halt ∧ t.status = .running ∧ t.cause = s.cause) := by
  obtain ⟨hs, ⟨c, hd, rfl⟩ | ⟨i, hd, he⟩⟩ := step_next h
  · exact .inl ⟨by simp [hd], c, rfl, rfl⟩
  by_cases hi : i = .halt
  · subst hi
    cases (exec_halt_eq s).symm.trans he
    exact .inr (.inl ⟨hd, rfl, rfl⟩)
  have hnot : decode s.fetch ≠ .ok .halt := by simpa [hd] using hi
  by_cases hf : t.status = .faulted
  · obtain ⟨c, -, hcause, -⟩ := faultedCyclesChangeNothingElse s t h hf
    exact .inl ⟨hnot, c, hf, hcause⟩
  · obtain ⟨hstatus, hcause⟩ := exec_sameOutcome hi he hf
    exact .inr (.inr ⟨hnot, hstatus.trans hs, hcause⟩)

/-! ## The end of a run (R138, R145) -/

theorem ended_iff (s : State) : s.ended = true ↔ s.status = .halted ∨ s.status = .faulted := by
  simp [State.ended]

theorem step_halts_iff {s t : State} (h : step s = .next t) : t.status = .halted ↔ decode s.fetch = .ok .halt := by
  rcases step_outcome h with ⟨hd, c, hstatus, -⟩ | ⟨hd, hstatus, -⟩ | ⟨hd, hstatus, -⟩ <;> simp [hd, hstatus]

/-- Settles O28: a step leaves HALTED exactly when Halt decodes, and Halt decodes exactly from a Halt word at `pc`. -/
theorem normalEndExactlyAtAHaltWord : Obligations.NormalEndExactlyAtAHaltWord := by
  refine ⟨ended_iff, fun s t h => ?_⟩
  rw [step_halts_iff h, decode_eq_ok_halt_iff, fetch_eq, Nat.cast_zero, add_zero]

theorem not_running_of_ended {s : State} (h : s.ended = true) : s.status ≠ .running := by
  rcases (ended_iff s).1 h with hs | hs <;> simp [hs]

theorem not_ready_of_ended {s : State} (h : s.ended = true) : s.status ≠ .ready := by
  rcases (ended_iff s).1 h with hs | hs <;> simp [hs]

/-- Settles O37: an ended engine is neither RUNNING, so further fuel takes no step, nor READY, so the host is refused. -/
theorem endedRunsAreAbsorbing : Obligations.EndedRunsAreAbsorbing := by
  refine ⟨fun n k s h => ?_, fun s ch h => ?_⟩
  · rw [run_add, run_of_no_step k (step_ne_next (not_running_of_ended h))]
  · have hs := not_ready_of_ended h
    exact ⟨execute_of_not_ready hs, setInputChannel_of_not_ready ch hs, setOutputChannel_of_not_ready ch hs⟩

end Sys2Proof.Machine
end

section
/-! The invariant `State.Inv` under a step and under every operation of the host: what each does to memory, to the
channels and to `STATUS` and `CAUSE` is stated above, and here each of these keeps its part of the invariant. -/

namespace Sys2Proof.Machine

/-! ## The parts of the invariant under a step -/

theorem StoresAtMost.wf {dest : Option Int} {s t : State} (h : StoresAtMost dest s t) (hwf : s.mem.wf = true) :
    t.mem.wf = true := by
  rcases h with hm | ⟨a, v, -, hin, hm⟩
  · rwa [hm]
  · rw [hm]
    exact put_wf v hwf hin

theorem step_mem_wf {s t : State} (h : step s = .next t) (hwf : s.mem.wf = true) : t.mem.wf = true := by
  obtain ⟨-, ⟨c, -, rfl⟩ | ⟨i, -, he⟩⟩ := step_next h
  · exact hwf
  · exact (exec_storesAtMost he).wf hwf

/-- A cursor below the end of the items may move on by one. -/
theorem channelWf_of_read {ch : Channel} (h : ch.cur < ch.items.length) : Channel.wf ⟨ch.items, ch.cur + 1⟩ = true :=
  (channelWf_iff _).2 h

theorem step_input_wf {s t : State} (h : step s = .next t) (hwf : boundWf s.input = true) : boundWf t.input = true := by
  rcases (channelsMoveOneElementAtATime s t h).1 with hin | ⟨ch, a0, -, -, hlt, hin⟩
  · rwa [hin]
  · rw [hin]
    exact channelWf_of_read hlt

theorem step_output_wf {s t : State} (h : step s = .next t) (hwf : boundWf s.output = true) :
    boundWf t.output = true := by
  rcases (channelsMoveOneElementAtATime s t h).2 with hout | ⟨ch, a0, v, hch, -, hout⟩
  · rwa [hout]
  · rw [hch] at hwf
    rw [hout]
    exact write_wf v hwf

/-- The step began in RUNNING, where the invariant leaves `CAUSE` 0: a fault entry sets both fields, and no other step
touches `CAUSE`. -/
theorem step_faulted_iff_cause {s t : State} (hinv : s.Inv) (h : step s = .next t) :
    t.status = .faulted ↔ t.cause.isSome = true := by
  have hs : s.status ≠ .faulted := by simp [(step_next h).1]
  have hnone := cause_eq_none_of_inv hinv hs
  rcases step_outcome h with ⟨-, c, hstatus, hcause⟩ | ⟨-, hstatus, hcause⟩ | ⟨-, hstatus, hcause⟩ <;>
    simp [hstatus, hcause, hnone]

/-- Settles O32: each of the four parts of the invariant is kept on its own. -/
theorem stepKeepsTheInvariant : Obligations.StepKeepsTheInvariant := by
  intro s t hinv h
  have hcause := step_faulted_iff_cause hinv h
  obtain ⟨hmem, hin, hout, -⟩ := hinv
  exact ⟨step_mem_wf h hmem, step_input_wf h hin, step_output_wf h hout, hcause⟩

/-! ## The invariant under the host's operations -/

section HostUpdates

variable {s : State} {ch : Channel}

theorem inv_setInput (hinv : s.Inv) (hch : ch.wf = true) : (s.setInput ch).Inv := by
  obtain ⟨hmem, -, hout, hcause⟩ := hinv
  exact ⟨hmem, hch, hout, hcause⟩

theorem inv_setOutput (hinv : s.Inv) (hch : ch.wf = true) : (s.setOutput ch).Inv := by
  obtain ⟨hmem, hin, -, hcause⟩ := hinv
  exact ⟨hmem, hin, hch, hcause⟩

theorem inv_setStatus_running (hinv : s.Inv) (hs : s.status ≠ .faulted) : (s.setStatus .running).Inv := by
  have hnone := cause_eq_none_of_inv hinv hs
  obtain ⟨hmem, hin, hout, -⟩ := hinv
  exact ⟨hmem, hin, hout, by simp [hnone]⟩

theorem wf_of_input (hinv : s.Inv) (hi : s.input = some ch) : ch.wf = true := by
  obtain ⟨-, hin, -, -⟩ := hinv
  rwa [hi] at hin

theorem wf_of_output (hinv : s.Inv) (ho : s.output = some ch) : ch.wf = true := by
  obtain ⟨-, -, hout, -⟩ := hinv
  rwa [ho] at hout

end HostUpdates

/-- Settles O46: every operation of the host sets one channel whose cursor is within its items, or begins a run. -/
theorem hostOperationsKeepTheInvariant : Obligations.HostOperationsKeepTheInvariant := by
  refine ⟨fun image => construct_inv, fun s t ch hinv hch h => ?_, fun s t ch hinv hch h => ?_, fun s t hinv h => ?_,
    fun s t v hinv h => ?_, fun s t hinv h => ?_, fun finished later t hfin hlater h => ?_⟩
  · rw [setInputChannel_next h]
    exact inv_setInput hinv hch
  · rw [setOutputChannel_next h]
    exact inv_setOutput hinv hch
  · obtain ⟨hs, rfl⟩ := execute_next h
    exact inv_setStatus_running hinv (by simp [hs])
  · obtain ⟨ch, hi, rfl⟩ := supplyInput_next h
    exact inv_setInput hinv (write_wf v (wf_of_input hinv hi))
  · obtain ⟨ch, -, hlt, rfl⟩ := collectOutput_next h
    exact inv_setOutput hinv (channelWf_of_read hlt)
  · obtain ⟨ch, ho, rfl⟩ := handOff_next h
    exact inv_setInput hlater (wf_of_output hfin ho)

end Sys2Proof.Machine
end

section
/-! The scenarios of spec/95_test_vectors.md, the instruction that stands in memory at `pc`, and the two ways to give an
instruction one operand value. -/

namespace Sys2Proof.Machine

/-! ## Encoded cells as they are written and as they stand in memory (R44, R46) -/

theorem decodeCells_of_encode_eq {i : Instr} {cells : List Word} (h : encode i = cells) : decodeCells cells = .ok i := by
  rw [← h, ← List.append_nil (encode i)]
  exact decodeOfEncodeIsTheInstruction i []

/-- Settles O1: the cells of each scenario are the encoding of the instruction they stand for. -/
theorem representativeWordsDecode : Obligations.RepresentativeWordsDecode := by
  refine ⟨?_, ?_, ?_, ?_, ?_, ?_, ?_, ?_, ?_⟩
  all_goals exact decodeCells_of_encode_eq rfl

theorem encode_length (i : Instr) : (encode i).length = i.length := by
  rw [encode, List.length_cons, List.length_map, args_length, Instr.length, Nat.add_comm]

/-- Settles O22: what is fetched agrees with the encoding on the instruction's cells, which decide what decodes. -/
theorem instructionStandingAtPcIsRun : Obligations.InstructionStandingAtPcIsRun := by
  intro s i hs hcells
  have hencoded : decode (fun k => (encode i)[k]?) = .ok i := decodeCells_of_encode_eq rfl
  have hfetch : decode s.fetch = .ok i :=
    (decodeDependsOnlyOnTheInstructionsCells _ s.fetch i hencoded).2 fun k hk => hcells k (by rwa [encode_length])
  exact step_of_decode hs hfetch

/-! ## Value arguments reach execution by their value (R83, Q2) -/

section ValueArguments

variable {op : Op} {f : Word → Word → Except Cause Word} {taken : Word → Bool} {a a' : Arg} {s : State}
  (h : s.val a = s.val a')

include h

theorem threeOperand_of_left_val_eq (b d : Arg) : threeOperand op f a b d s = threeOperand op f a' b d s := by
  rw [threeOperand, threeOperand, h]

theorem threeOperand_of_right_val_eq (b d : Arg) : threeOperand op f b a d s = threeOperand op f b a' d s := by
  rw [threeOperand, threeOperand, h]

theorem execWrite_of_val_eq : execWrite a s = execWrite a' s := by
  rw [execWrite, execWrite, h]

theorem jumpWhen_of_condition_val_eq (b : Arg) : jumpWhen op taken a b s = jumpWhen op taken a' b s := by
  rw [jumpWhen, jumpWhen, h]

theorem jumpWhen_of_target_val_eq (b : Arg) : jumpWhen op taken b a s = jumpWhen op taken b a' s := by
  rw [jumpWhen, jumpWhen, h]

end ValueArguments

/-- Settles O11: both arguments have the value `v`, and a value argument reaches execution through its value alone. -/
theorem immediateAndPositionAgree : Obligations.ImmediateAndPositionAgree := by
  intro s r v b d hcell
  have h : s.val ⟨r, .position⟩ = s.val ⟨v, .immediate⟩ := (val_position s r).trans (read_ok_iff.2 hcell)
  exact ⟨threeOperand_of_left_val_eq h b d, threeOperand_of_right_val_eq h b d, threeOperand_of_left_val_eq h b d,
    threeOperand_of_right_val_eq h b d, execWrite_of_val_eq h, jumpWhen_of_condition_val_eq h b,
    jumpWhen_of_target_val_eq h b, jumpWhen_of_condition_val_eq h b, jumpWhen_of_target_val_eq h b,
    threeOperand_of_left_val_eq h b d, threeOperand_of_right_val_eq h b d, threeOperand_of_left_val_eq h b d,
    threeOperand_of_right_val_eq h b d⟩

end Sys2Proof.Machine
end
